-- ==== Sys2Proof/Word.lean ====
section
/-! DEFINITION. The two widths of this hardware: bytes (registers, memory, timers) and 16-bit words
(PC, I, stack entries, instruction words). Every value is unsigned (00_scope.md section 6.1). -/

namespace Sys2Proof

/-- An 8-bit unsigned value (00_scope.md R3). -/
abbrev Byte := BitVec 8

/-- A 16-bit unsigned value (00_scope.md R3). -/
abbrev Word := BitVec 16

end Sys2Proof
end

