-- ==== Sys2Proof/Config.lean ====
section
/-! DEFINITION. The fixed sizes of 00_scope.md R3 that the definitions name, the reset values the
spec states by a decision of its own, and the free values: constants with no body, of which nothing
can be proved. -/

namespace Sys2Proof

/-- MEM_BYTES (R3): addresses 0x000 to 0xFFF. -/
@[simp] abbrev Config.memBytes : Nat := 4096

/-- PROG_BASE (R3): where `load` puts an image, and the reset PC. -/
@[simp] abbrev Config.progBase : Nat := 0x200

/-- PROG_MAX (R3): the longest program image, 4096 - 0x200 bytes. -/
@[simp] abbrev Config.progMax : Nat := 3584

/-- GLYPH_BASE (R3). -/
@[simp] abbrev Config.glyphBase : Nat := 0x050

/-- GLYPH_BYTES (R3): 16 glyphs of 5 bytes. -/
@[simp] abbrev Config.glyphBytes : Nat := 80

/-- Reset value of I (10_state.md R17; the spec's parameter I_RESET, decision D12, log 7). -/
def Config.iReset : Word := 0x0000

/-- Reset value of DRAW (10_state.md R24; the spec's parameter DRAW_RESET, decision D15, log 7). -/
def Config.drawReset : Bool := false

/-- FREE VALUE (DESIGN CHOICE, log 5; safe): the `n`-th byte drawn on the input RND8 (10_state.md
R26, 41_alu.md R112). It has no body: the spec puts it "under no law that a proof may use". -/
opaque Config.rnd8 : Nat → Byte

/-- FREE VALUE (DESIGN CHOICE, log 3; safe): which of the offending addresses of an access from
byte `first` to byte `last` a BoundsFault reports (60_exceptions.md R172 says "the offending
address" and does not say which, where there are several). -/
opaque Config.offending : (first last : Nat) → Nat

end Sys2Proof
end

