-- ==== Sys2Proof/Syntax.lean ====
section
/-! DEFINITION. The instructions: one constructor per row of spec/opcode_table.json (30_encoding.md
R73), with the operands the row has and no ignored bits (R70). -/

namespace Sys2Proof

/-- The number of a general register, V0 to VF. Every value 0 to 15 is legal (30_encoding.md R63). -/
abbrev Reg := Fin 16

/-- The 34 instructions, in the order of the spec's table (30_encoding.md R73). -/
inductive Instr where
  /-- `CLS`, 00E0 (R140). -/
  | cls
  /-- `RET`, 00EE (R80). -/
  | ret
  /-- `JP addr`, 1NNN (R81). -/
  | jp (addr : BitVec 12)
  /-- `CALL addr`, 2NNN (R82). -/
  | call (addr : BitVec 12)
  /-- `SE Vx, byte`, 3XNN (R83). -/
  | seByte (x : Reg) (nn : Byte)
  /-- `SNE Vx, byte`, 4XNN (R84). -/
  | sneByte (x : Reg) (nn : Byte)
  /-- `SE Vx, Vy`, 5XY- (R85). -/
  | seReg (x y : Reg)
  /-- `LD Vx, byte`, 6XNN (R100). -/
  | ldByte (x : Reg) (nn : Byte)
  /-- `ADD Vx, byte`, 7XNN (R101). -/
  | addByte (x : Reg) (nn : Byte)
  /-- `LD Vx, Vy`, 8XY0 (R102). -/
  | ldReg (x y : Reg)
  /-- `OR Vx, Vy`, 8XY1 (R103). -/
  | or (x y : Reg)
  /-- `AND Vx, Vy`, 8XY2 (R104). -/
  | and (x y : Reg)
  /-- `XOR Vx, Vy`, 8XY3 (R105). -/
  | xor (x y : Reg)
  /-- `ADD Vx, Vy`, 8XY4 (R106). -/
  | addReg (x y : Reg)
  /-- `SUB Vx, Vy`, 8XY5 (R107). -/
  | sub (x y : Reg)
  /-- `SHR Vx`, 8X-6 (R108). -/
  | shr (x : Reg)
  /-- `SUBN Vx, Vy`, 8XY7 (R109). -/
  | subn (x y : Reg)
  /-- `SHL Vx`, 8X-E (R110). -/
  | shl (x : Reg)
  /-- `SNE Vx, Vy`, 9XY- (R86). -/
  | sneReg (x y : Reg)
  /-- `LD I, addr`, ANNN (R120). -/
  | ldI (addr : BitVec 12)
  /-- `JP V0, addr`, BNNN (R87). -/
  | jpV0 (addr : BitVec 12)
  /-- `RND Vx, byte`, CXNN (R112). -/
  | rnd (x : Reg) (nn : Byte)
  /-- `DRW Vx, Vy, n`, DXYN (R141); `n` counts rows, 0 to 15. -/
  | drw (x y : Reg) (n : Fin 16)
  /-- `SKP Vx`, EX9E (R150). -/
  | skp (x : Reg)
  /-- `SKNP Vx`, EXA1 (R151). -/
  | sknp (x : Reg)
  /-- `LD Vx, DT`, FX07 (R152). -/
  | ldVxDt (x : Reg)
  /-- `LD Vx, K`, FX0A (R153). -/
  | ldVxK (x : Reg)
  /-- `LD DT, Vx`, FX15 (R154). -/
  | ldDtVx (x : Reg)
  /-- `LD ST, Vx`, FX18 (R155). -/
  | ldStVx (x : Reg)
  /-- `ADD I, Vx`, FX1E (R121). -/
  | addI (x : Reg)
  /-- `LD F, Vx`, FX29 (R122). -/
  | ldF (x : Reg)
  /-- `LD B, Vx`, FX33 (R123). -/
  | ldB (x : Reg)
  /-- `LD [I], Vx`, FX55 (R124). -/
  | storeRegs (x : Reg)
  /-- `LD Vx, [I]`, FX65 (R125). -/
  | loadRegs (x : Reg)
  deriving DecidableEq, Repr

end Sys2Proof
end

