-- ==== Sys2Proof/WellFormed.lean ====
section
/-! DEFINITION. What is well formed. Every term of `Instr` is: its operand types admit exactly the
values of 30_encoding.md R63 ("no register field can be illegal"). What can be ill formed is an
instruction WORD that matches no row of the opcode table (R71), and a program IMAGE that does not
fit (70_reset_and_hazards.md R206, R207). -/

namespace Sys2Proof

/-- One row of the opcode table: `w` is the instruction when `w AND mask = pattern`
(30_encoding.md R73). -/
structure OpRow where
  mnemonic : String
  mask : Word
  pattern : Word
  deriving DecidableEq, Repr

/-- The row of an instruction, its mnemonic spelled as spec/opcode_table.json spells it
(30_encoding.md R73). -/
def Instr.row : Instr → OpRow
  | .cls => ⟨"CLS", 0xFFFF, 0x00E0⟩
  | .ret => ⟨"RET", 0xFFFF, 0x00EE⟩
  | .jp _ => ⟨"JP_addr", 0xF000, 0x1000⟩
  | .call _ => ⟨"CALL_addr", 0xF000, 0x2000⟩
  | .seByte _ _ => ⟨"SE_Vx__byte", 0xF000, 0x3000⟩
  | .sneByte _ _ => ⟨"SNE_Vx__byte", 0xF000, 0x4000⟩
  | .seReg _ _ => ⟨"SE_Vx__Vy", 0xF000, 0x5000⟩
  | .ldByte _ _ => ⟨"LD_Vx__byte", 0xF000, 0x6000⟩
  | .addByte _ _ => ⟨"ADD_Vx__byte", 0xF000, 0x7000⟩
  | .ldReg _ _ => ⟨"LD_Vx__Vy", 0xF00F, 0x8000⟩
  | .or _ _ => ⟨"OR_Vx__Vy", 0xF00F, 0x8001⟩
  | .and _ _ => ⟨"AND_Vx__Vy", 0xF00F, 0x8002⟩
  | .xor _ _ => ⟨"XOR_Vx__Vy", 0xF00F, 0x8003⟩
  | .addReg _ _ => ⟨"ADD_Vx__Vy", 0xF00F, 0x8004⟩
  | .sub _ _ => ⟨"SUB_Vx__Vy", 0xF00F, 0x8005⟩
  | .shr _ => ⟨"SHR_Vx", 0xF00F, 0x8006⟩
  | .subn _ _ => ⟨"SUBN_Vx__Vy", 0xF00F, 0x8007⟩
  | .shl _ => ⟨"SHL_Vx", 0xF00F, 0x800E⟩
  | .sneReg _ _ => ⟨"SNE_Vx__Vy", 0xF000, 0x9000⟩
  | .ldI _ => ⟨"LD_I__addr", 0xF000, 0xA000⟩
  | .jpV0 _ => ⟨"JP_V0__addr", 0xF000, 0xB000⟩
  | .rnd _ _ => ⟨"RND_Vx__byte", 0xF000, 0xC000⟩
  | .drw _ _ _ => ⟨"DRW_Vx__Vy__n", 0xF000, 0xD000⟩
  | .skp _ => ⟨"SKP_Vx", 0xF0FF, 0xE09E⟩
  | .sknp _ => ⟨"SKNP_Vx", 0xF0FF, 0xE0A1⟩
  | .ldVxDt _ => ⟨"LD_Vx__DT", 0xF0FF, 0xF007⟩
  | .ldVxK _ => ⟨"LD_Vx__K", 0xF0FF, 0xF00A⟩
  | .ldDtVx _ => ⟨"LD_DT__Vx", 0xF0FF, 0xF015⟩
  | .ldStVx _ => ⟨"LD_ST__Vx", 0xF0FF, 0xF018⟩
  | .addI _ => ⟨"ADD_I__Vx", 0xF0FF, 0xF01E⟩
  | .ldF _ => ⟨"LD_F__Vx", 0xF0FF, 0xF029⟩
  | .ldB _ => ⟨"LD_B__Vx", 0xF0FF, 0xF033⟩
  | .storeRegs _ => ⟨"LD__I___Vx", 0xF0FF, 0xF055⟩
  | .loadRegs _ => ⟨"LD_Vx___I", 0xF0FF, 0xF065⟩

/-- One instruction of each kind, in table order: the opcode table is their rows. -/
def Instr.kinds : List Instr :=
  [.cls, .ret, .jp 0, .call 0, .seByte 0 0, .sneByte 0 0, .seReg 0 0, .ldByte 0 0, .addByte 0 0,
    .ldReg 0 0, .or 0 0, .and 0 0, .xor 0 0, .addReg 0 0, .sub 0 0, .shr 0, .subn 0 0, .shl 0,
    .sneReg 0 0, .ldI 0, .jpV0 0, .rnd 0 0, .drw 0 0 0, .skp 0, .sknp 0, .ldVxDt 0, .ldVxK 0,
    .ldDtVx 0, .ldStVx 0, .addI 0, .ldF 0, .ldB 0, .storeRegs 0, .loadRegs 0]

/-- The opcode table of 30_encoding.md R73, 34 rows. -/
def opcodeTable : List OpRow := Instr.kinds.map Instr.row

/-- Does the word match the row? (R73) -/
def OpRow.admits (r : OpRow) (w : Word) : Bool := w &&& r.mask == r.pattern

/-- A word is well formed when some row admits it; the others are R71's illegal words. -/
def legalWord (w : Word) : Bool := opcodeTable.any fun r => r.admits w

/-- An image is well formed when it fits from 0x200 to the top of memory (R206, R207). -/
def imageFits (bytes : List Byte) : Bool := decide (bytes.length ≤ Config.progMax)

end Sys2Proof
end

