-- ==== Sys2Proof/Decode.lean ====
section
/-! DEFINITION. From bytes to instructions and back. The decoder follows the two-level dispatch of
30_encoding.md R64 to R68 and R72; the encoder writes the words of the same rules, ignored bits 0
(R74). The opcode table of WellFormed.lean is not used here: that the two agree is a statement. -/

namespace Sys2Proof

/-! ### Byte order and fields -/

/-- Two bytes as fetched, the high byte at the lower address (20_memory.md R42). -/
def joinBytes (hi lo : Byte) : Word := hi ++ lo

/-- The byte of a word that stands at the lower address (R42). -/
def hiByte (w : Word) : Byte := w.extractLsb' 8 8

/-- The byte of a word that stands at the higher address (R42). -/
def loByte (w : Word) : Byte := w.extractLsb' 0 8

/-- Field C, bits 15:12 (30_encoding.md R61). -/
def fieldC (w : Word) : BitVec 4 := w.extractLsb' 12 4

/-- Field X, bits 11:8, a register number (R61). -/
def fieldX (w : Word) : Reg := (w.extractLsb' 8 4).toFin

/-- Field Y, bits 7:4, a register number (R61). -/
def fieldY (w : Word) : Reg := (w.extractLsb' 4 4).toFin

/-- Field N, bits 3:0 (R61). -/
def fieldN (w : Word) : BitVec 4 := w.extractLsb' 0 4

/-- Field NN, bits 7:0 (R61). -/
def fieldNN (w : Word) : Byte := w.extractLsb' 0 8

/-- Field NNN, bits 11:0 (R61). -/
def fieldNNN (w : Word) : BitVec 12 := w.extractLsb' 0 12

/-! ### Decoding -/

/-- Why a word or a byte list is no instruction. Each is a DecodeError of the step that meets it
(60_exceptions.md R176), except `short`, which no fetch produces. -/
inductive DecodeReject where
  /-- Fewer than two bytes. -/
  | short
  /-- Group 0 holds 00E0 and 00EE only (30_encoding.md R72). -/
  | group0 (w : Word)
  /-- Group 8 has no such selector N (R66). -/
  | group8 (n : BitVec 4)
  /-- Group E has no such selector NN (R67). -/
  | groupE (nn : Byte)
  /-- Group F has no such selector NN (R68). -/
  | groupF (nn : Byte)
  deriving DecidableEq, Repr

/-- Group 0: all sixteen bits are matched (R72). -/
def decodeGroup0 (w : Word) : Except DecodeReject Instr :=
  if w = 0x00E0 then .ok .cls
  else if w = 0x00EE then .ok .ret
  else .error (.group0 w)

/-- Group 8: the selector is N (R66). -/
def decodeGroup8 (w : Word) : Except DecodeReject Instr :=
  let x := fieldX w
  let y := fieldY w
  match (fieldN w).toNat with
  | 0x0 => .ok (.ldReg x y)
  | 0x1 => .ok (.or x y)
  | 0x2 => .ok (.and x y)
  | 0x3 => .ok (.xor x y)
  | 0x4 => .ok (.addReg x y)
  | 0x5 => .ok (.sub x y)
  | 0x6 => .ok (.shr x)
  | 0x7 => .ok (.subn x y)
  | 0xE => .ok (.shl x)
  | _ => .error (.group8 (fieldN w))

/-- Group E: the selector is NN (R67). -/
def decodeGroupE (w : Word) : Except DecodeReject Instr :=
  let x := fieldX w
  if fieldNN w = 0x9E then .ok (.skp x)
  else if fieldNN w = 0xA1 then .ok (.sknp x)
  else .error (.groupE (fieldNN w))

/-- Group F: the selector is NN (R68). -/
def decodeGroupF (w : Word) : Except DecodeReject Instr :=
  let x := fieldX w
  if fieldNN w = 0x07 then .ok (.ldVxDt x)
  else if fieldNN w = 0x0A then .ok (.ldVxK x)
  else if fieldNN w = 0x15 then .ok (.ldDtVx x)
  else if fieldNN w = 0x18 then .ok (.ldStVx x)
  else if fieldNN w = 0x1E then .ok (.addI x)
  else if fieldNN w = 0x29 then .ok (.ldF x)
  else if fieldNN w = 0x33 then .ok (.ldB x)
  else if fieldNN w = 0x55 then .ok (.storeRegs x)
  else if fieldNN w = 0x65 then .ok (.loadRegs x)
  else .error (.groupF (fieldNN w))

/-- The instruction of a word: C selects the group (R64, R65). C has four bits, so the last arm is
C = 0xF. -/
def decodeWord (w : Word) : Except DecodeReject Instr :=
  match (fieldC w).toNat with
  | 0x0 => decodeGroup0 w
  | 0x1 => .ok (.jp (fieldNNN w))
  | 0x2 => .ok (.call (fieldNNN w))
  | 0x3 => .ok (.seByte (fieldX w) (fieldNN w))
  | 0x4 => .ok (.sneByte (fieldX w) (fieldNN w))
  | 0x5 => .ok (.seReg (fieldX w) (fieldY w))
  | 0x6 => .ok (.ldByte (fieldX w) (fieldNN w))
  | 0x7 => .ok (.addByte (fieldX w) (fieldNN w))
  | 0x8 => decodeGroup8 w
  | 0x9 => .ok (.sneReg (fieldX w) (fieldY w))
  | 0xA => .ok (.ldI (fieldNNN w))
  | 0xB => .ok (.jpV0 (fieldNNN w))
  | 0xC => .ok (.rnd (fieldX w) (fieldNN w))
  | 0xD => .ok (.drw (fieldX w) (fieldY w) (fieldN w).toFin)
  | 0xE => decodeGroupE w
  | _ => decodeGroupF w

/-- The instruction at the head of a byte list, with the bytes after it: every instruction is two
bytes, high byte first (R60). -/
def decode : List Byte → Except DecodeReject (Instr × List Byte)
  | hi :: lo :: rest => (decodeWord (joinBytes hi lo)).map fun i => (i, rest)
  | _ => .error .short

/-! ### Encoding -/

/-- The four bits of a register field (R63). -/
def regBits (r : Reg) : BitVec 4 := BitVec.ofFin (w := 4) r

/-- Format NNN: C and a 12-bit address (R62). -/
def wordNNN (c : BitVec 4) (addr : BitVec 12) : Word := c ++ addr

/-- Format XNN: C, a register and an 8-bit immediate or selector (R62; format X has the same
layout). -/
def wordXNN (c : BitVec 4) (x : Reg) (nn : Byte) : Word := c ++ regBits x ++ nn

/-- Format XYN: C, two registers and a 4-bit immediate or selector (R62; format XY has the same
layout). -/
def wordXYN (c : BitVec 4) (x y : Reg) (n : BitVec 4) : Word := c ++ regBits x ++ regBits y ++ n

/-- The word of an instruction, the bits the decoder ignores being 0 (R73, R74). -/
def encode : Instr → Word
  | .cls => 0x00E0
  | .ret => 0x00EE
  | .jp a => wordNNN 0x1 a
  | .call a => wordNNN 0x2 a
  | .seByte x nn => wordXNN 0x3 x nn
  | .sneByte x nn => wordXNN 0x4 x nn
  | .seReg x y => wordXYN 0x5 x y 0x0
  | .ldByte x nn => wordXNN 0x6 x nn
  | .addByte x nn => wordXNN 0x7 x nn
  | .ldReg x y => wordXYN 0x8 x y 0x0
  | .or x y => wordXYN 0x8 x y 0x1
  | .and x y => wordXYN 0x8 x y 0x2
  | .xor x y => wordXYN 0x8 x y 0x3
  | .addReg x y => wordXYN 0x8 x y 0x4
  | .sub x y => wordXYN 0x8 x y 0x5
  | .shr x => wordXYN 0x8 x 0 0x6
  | .subn x y => wordXYN 0x8 x y 0x7
  | .shl x => wordXYN 0x8 x 0 0xE
  | .sneReg x y => wordXYN 0x9 x y 0x0
  | .ldI a => wordNNN 0xA a
  | .jpV0 a => wordNNN 0xB a
  | .rnd x nn => wordXNN 0xC x nn
  | .drw x y n => wordXYN 0xD x y (BitVec.ofFin (w := 4) n)
  | .skp x => wordXNN 0xE x 0x9E
  | .sknp x => wordXNN 0xE x 0xA1
  | .ldVxDt x => wordXNN 0xF x 0x07
  | .ldVxK x => wordXNN 0xF x 0x0A
  | .ldDtVx x => wordXNN 0xF x 0x15
  | .ldStVx x => wordXNN 0xF x 0x18
  | .addI x => wordXNN 0xF x 0x1E
  | .ldF x => wordXNN 0xF x 0x29
  | .ldB x => wordXNN 0xF x 0x33
  | .storeRegs x => wordXNN 0xF x 0x55
  | .loadRegs x => wordXNN 0xF x 0x65

/-- The two bytes of an instruction as memory holds them, high byte first (R60). -/
def encodeBytes (i : Instr) : List Byte := [hiByte (encode i), loByte (encode i)]

/-- The bits of an instruction's word that the decoder ignores: N in groups 5 and 9, Y in SHR and
SHL, no other (R70). -/
def ignoredBits : Instr → Word
  | .seReg _ _ => 0x000F
  | .sneReg _ _ => 0x000F
  | .shr _ => 0x00F0
  | .shl _ => 0x00F0
  | _ => 0x0000

/-! ### The host's view of the decoder -/

/-- The instruction the decoder reads from an instruction whose bits are `w`, the word laid out in
memory order. An instruction has 16 bits (R60): more are no instruction. -/
def decodeTableWord (nbits w : Nat) : Option Instr :=
  if nbits ≤ 16 ∧ w < 65536 then
    match decode [hiByte (BitVec.ofNat 16 w), loByte (BitVec.ofNat 16 w)] with
    | .ok (i, _) => some i
    | .error _ => none
  else none

end Sys2Proof
end

