-- ==== Sys2Proof/Machine/State.lean ====
section
/-! DEFINITION. The state of the core (10_state.md), plain data, and its value right after reset. -/

namespace Sys2Proof.Machine

/-- What a BoundsFault is about (60_exceptions.md R172). -/
inductive BoundsKind where
  | fetch
  | data
  | key
  deriving DecidableEq, Repr

/-- The result of a step, with the payload for the host's diagnosis (60_exceptions.md R172).
`addr` is the address A of the instruction; for a failed fetch it is PC. -/
inductive Status where
  | ok
  | decodeError (op : Word) (addr : Word)
  | stackOverflow (addr : Word)
  | stackUnderflow (addr : Word)
  | boundsFault (kind : BoundsKind) (index : Nat) (addr : Word)
  deriving DecidableEq, Repr

/-- MEM as a list of (address, byte), addresses rising, holding only the bytes that differ from
what an unlisted address reads as (`Memory.unlisted` in Ops.lean; the form is `Memory.wf`). -/
abbrev Memory := List Host.Cell

/-- FB: 32 rows of 64 one-bit pixels; the pixel at column `x` of row `y` is bit `x` of row `y`,
that is FB[64*y + x] (10_state.md R23; log 8). -/
abbrev Framebuffer := Vector (BitVec 64) 32

/-- Everything 10_state.md gives the machine, its two inputs and its result output. -/
structure State where
  /-- V[0] to V[15]; V[15] is VF (R10, R11). -/
  v : Vector Byte 16
  /-- The program counter (R13). -/
  pc : Word
  /-- The index register (R17). -/
  i : Word
  /-- The call stack's entries (R18). -/
  stack : Vector Word 16
  /-- The stack pointer, the number of entries in use, 0 to 16 (R19). -/
  sp : Fin 17
  /-- The delay timer (R20). -/
  dt : Byte
  /-- The sound timer (R21). -/
  st : Byte
  /-- The 4096 bytes of memory (R22). -/
  mem : Memory
  /-- The framebuffer (R23). -/
  fb : Framebuffer
  /-- The redraw flag (R24). -/
  draw : Bool
  /-- The key levels the host drives; an input, read-only to the core (R25; log 4). -/
  key : Vector Bool 16
  /-- The result of the last step; none before the first (R27; log 2). -/
  status : Option Status
  /-- The model's own field: how many RND8 bytes have been drawn (R26; log 5). -/
  rndCount : Nat
  deriving DecidableEq, Repr

/-- Reasons for a stop. There are none: every step of this hardware has a next state
(40_control_flow.md R89), and a failure is reported and leaves a state from which the next step is
defined (60_exceptions.md R174; log 1). -/
inductive Fault where
  deriving DecidableEq, Repr

/-- Reasons for having no meaning. -/
inductive Refusal where
  /-- Raised by an arm of `exec` for an instruction that has no meaning yet; no arm raises it now.
  Safe: nothing is claimed of the instruction. -/
  | notModelled (mnemonic : String)
  deriving DecidableEq, Repr

/-- What a meaning answers. -/
abbrev StepResult := Host.Outcome State Fault Refusal

/-- The machine right after reset (70_reset_and_hazards.md R200). `mem` lists nothing: every byte
reads as its reset contents. STACK (log 6), KEY (log 4) and `rndCount` (log 5) hold values the
model chose. -/
def State.reset : State where
  v := Vector.replicate 16 0x00
  pc := 0x0200
  i := Config.iReset
  stack := Vector.replicate 16 0x0000
  sp := 0
  dt := 0x00
  st := 0x00
  mem := []
  fb := Vector.replicate 32 0
  draw := Config.drawReset
  key := Vector.replicate 16 false
  status := none
  rndCount := 0

end Sys2Proof.Machine
end

