-- ==== Sys2Proof/Machine/Ops.lean ====
section
/-! DEFINITION. The named operations over memory, PC, stack, status, timers and keypad. -/

namespace Sys2Proof.Machine

/-! ### Memory (20_memory.md) -/

/-- The 16 glyphs of 5 bytes, digits 0 to F, top row first (20_memory.md R49; log 11). -/
def glyphTable : List Byte :=
  [0xF0, 0x90, 0x90, 0x90, 0xF0] ++ [0x20, 0x60, 0x20, 0x20, 0x70]
  ++ [0xF0, 0x10, 0xF0, 0x80, 0xF0] ++ [0xF0, 0x10, 0xF0, 0x10, 0xF0]
  ++ [0x90, 0x90, 0xF0, 0x10, 0x10] ++ [0xF0, 0x80, 0xF0, 0x10, 0xF0]
  ++ [0xF0, 0x80, 0xF0, 0x90, 0xF0] ++ [0xF0, 0x10, 0x20, 0x40, 0x40]
  ++ [0xF0, 0x90, 0xF0, 0x90, 0xF0] ++ [0xF0, 0x90, 0xF0, 0x10, 0xF0]
  ++ [0xF0, 0x90, 0xF0, 0x90, 0x90] ++ [0xE0, 0x90, 0xE0, 0x90, 0xE0]
  ++ [0xF0, 0x80, 0x80, 0x80, 0xF0] ++ [0xE0, 0x90, 0x90, 0x90, 0xE0]
  ++ [0xF0, 0x80, 0xF0, 0x80, 0xF0] ++ [0xF0, 0x80, 0xF0, 0x80, 0x80]

/-- What an address that memory does not list reads as: the reset contents, the glyph table at
0x050 to 0x09F and 0x00 elsewhere (10_state.md R22; 20_memory.md R49). -/
def Memory.unlisted (a : Nat) : Byte :=
  if Config.glyphBase ≤ a ∧ a < Config.glyphBase + Config.glyphBytes then
    glyphTable.getD (a - Config.glyphBase) 0x00
  else 0x00

/-- MEM[a], one byte; no side effect (R45). Every caller has checked `a ≤ 0xFFF` (R46). -/
def Memory.read : Memory → Nat → Byte
  | [], a => Memory.unlisted a
  | (k, c) :: m, a => if a = k then c else Memory.read m a

/-- The cell that lists byte `b` at address `a`, if it has to be listed. -/
def Memory.cell (a : Nat) (b : Byte) : Memory :=
  if b = Memory.unlisted a then [] else [(a, b)]

/-- MEM[a] <- b, keeping the canonical form. -/
def Memory.write : Memory → Nat → Byte → Memory
  | [], a, b => Memory.cell a b
  | (k, c) :: m, a, b =>
    if a < k then Memory.cell a b ++ (k, c) :: m
    else if a = k then Memory.cell a b ++ m
    else (k, c) :: Memory.write m a b

/-- MEM[a], MEM[a+1], … <- the bytes, in ascending address order (R51). -/
def Memory.writeBytes : Memory → Nat → List Byte → Memory
  | m, _, [] => m
  | m, a, b :: bs => Memory.writeBytes (Memory.write m a b) (a + 1) bs

/-- MEM[a .. a+n-1], in ascending address order (R51). -/
def Memory.readBytes (m : Memory) (a n : Nat) : List Byte :=
  (List.range n).map fun k => Memory.read m (a + k)

/-- The canonical form from address `lo` on: addresses rising, inside memory, and no cell equal to
what an unlisted address reads as. -/
def Memory.wfFrom : Nat → Memory → Bool
  | _, [] => true
  | lo, (a, b) :: m =>
    decide (lo ≤ a) && decide (a < Config.memBytes) && (b != Memory.unlisted a)
      && Memory.wfFrom (a + 1) m

/-- The canonical form of memory. -/
def Memory.wf (m : Memory) : Bool := Memory.wfFrom 0 m

/-- MEM[a .. a+n-1] <- the bytes. -/
def State.storeBytes (s : State) (a : Nat) (bs : List Byte) : State :=
  { s with mem := s.mem.writeBytes a bs }

/-- Does an access of `count` bytes from `base` stay at or below 0x0FFF? The sum is not reduced; an
access of no bytes is always in range (20_memory.md R41, R46). -/
def inMemory (base count : Nat) : Bool := count == 0 || decide (base + count - 1 ≤ 0x0FFF)

/-! ### Reporting the result of a step (60_exceptions.md R172, R174) -/

/-- THE one way a result is reported: the status output takes the value, nothing else changes
(R174: it sets no architectural state, latches nothing and vectors nowhere). -/
def State.report (s : State) (r : Status) : State := { s with status := some r }

/-- The instruction is done: the step returns OK. -/
def finish (s : State) : StepResult := .next (s.report .ok)

/-- `raise`: the step ends with the failure `cause A`, A the address of the instruction, which is
PC - 2 here since PC is already advanced (R172). The caller has written nothing yet (R175). -/
def raise (cause : Word → Status) (s : State) : StepResult := .next (s.report (cause (s.pc - 2)))

/-- The address a BoundsFault reports for an access from byte `first` to byte `last`: one of those
above 0x0FFF, which one is free (R172; log 3). -/
def offendingIndex (first last : Nat) : Nat :=
  let lo := max first 0x1000
  lo + Config.offending first last % (last + 1 - lo)

/-- Run `body` if the `count` bytes from `base` lie in memory, else raise BoundsFault: the check
covers the whole range and precedes every write (20_memory.md R46). -/
def withinMemory (s : State) (base count : Nat) (body : StepResult) : StepResult :=
  if inMemory base count then body
  else raise (.boundsFault .data (offendingIndex base (base + count - 1))) s

/-! ### Program counter (10_state.md R13 to R16) -/

/-- PC <- target. -/
def State.jump (s : State) (target : Word) : State := { s with pc := target }

/-- The pre-increment: PC <- PC + 2 mod 65536 (R15). -/
def State.advance (s : State) : State := s.jump (s.pc + 2)

/-- Skip the next instruction if `b`: a further + 2 (R15 (b)). -/
def State.skipIf (s : State) (b : Bool) : State := if b then s.jump (s.pc + 2) else s

/-- The word at PC, or none where PC > 0x0FFE (20_memory.md R42, R46). -/
def fetchWord (s : State) : Option Word :=
  if s.pc.toNat ≤ 0x0FFE then
    some (joinBytes (s.mem.read s.pc.toNat) (s.mem.read (s.pc.toNat + 1)))
  else none

/-- A failed fetch: BoundsFault, PC unchanged, A = PC (60_exceptions.md R172, R175 (a)). -/
def reportFetchFault (s : State) : StepResult :=
  .next (s.report (.boundsFault .fetch (offendingIndex s.pc.toNat (s.pc.toNat + 1)) s.pc))

/-- A word that is no instruction: DecodeError (60_exceptions.md R176); PC is already advanced. -/
def reportDecodeError (op : Word) (s : State) : StepResult := raise (.decodeError op) s

/-! ### Call stack (10_state.md R18, R19) -/

/-- STACK[SP] <- w, SP <- SP + 1; none, and nothing written, where SP = 16. -/
def State.push (s : State) (w : Word) : Option State :=
  if h : s.sp.val < 16 then
    some { s with stack := s.stack.set s.sp.val w, sp := ⟨s.sp.val + 1, by omega⟩ }
  else none

/-- SP <- SP - 1, then STACK[SP]; none, and nothing written, where SP = 0. The popped entry stays
in the stack. -/
def State.pop (s : State) : Option (Word × State) :=
  if h : 0 < s.sp.val then
    some (s.stack[s.sp.val - 1]'(by omega), { s with sp := ⟨s.sp.val - 1, by omega⟩ })
  else none

/-! ### Timers (60_exceptions.md R183, R184) -/

/-- Down by one, never below 0. -/
def tick (t : Byte) : Byte := if t = 0 then 0 else t - 1

/-- The timer pass at the end of every step. -/
def State.timerPass (s : State) : State := { s with dt := tick s.dt, st := tick s.st }

/-- The end of a step: the timer pass, whether the step failed or not (R170 step 6, R184). -/
def endStep : StepResult → StepResult
  | .next s => .next s.timerPass
  | .fault r => .fault r
  | .refused r => .refused r

/-! ### Keypad (10_state.md R25; 60_exceptions.md R186) -/

/-- Run `body` on the level of the key numbered `k`, or raise BoundsFault where k > 15
(44_keypad_timers.md R150, R151). -/
def withKey (s : State) (k : Byte) (body : Bool → StepResult) : StepResult :=
  if h : k.toNat < 16 then body s.key[k.toNat]
  else raise (.boundsFault .key k.toNat) s

/-- The least pressed key, if any is pressed (R153). -/
def firstPressed (key : Vector Bool 16) : Option (Fin 16) :=
  (List.finRange 16).find? fun k => key[k]

/-! ### Random byte (10_state.md R26) -/

/-- The fresh RND8 byte of this execution, and the state in which it is used up (log 5). -/
def State.drawRnd (s : State) : Byte × State :=
  (Config.rnd8 s.rndCount, { s with rndCount := s.rndCount + 1 })

end Sys2Proof.Machine
end

