-- ==== Sys2Proof/Machine/Operands.lean ====
section
/-! DEFINITION. Operands: the general registers, one at a time and as the block V0..Vx, and the
immediates (10_state.md R10; 30_encoding.md R63; 20_memory.md R43). -/

namespace Sys2Proof.Machine

/-- V[x]. -/
def State.reg (s : State) (x : Reg) : Byte := s.v[x]

/-- V[x] <- b. -/
def State.setReg (s : State) (x : Reg) (b : Byte) : State := { s with v := s.v.set x b }

/-- VF, the register that doubles as the flag (10_state.md R11). -/
abbrev vf : Reg := 15

/-- V0, which `JP V0, addr` reads (40_control_flow.md R87). -/
abbrev v0 : Reg := 0

/-- VF <- flag, and after it V[x] <- result: the order of the two writes of the flag-producing
instructions (10_state.md R12). -/
def State.setFlagThenReg (s : State) (flag : Byte) (x : Reg) (result : Byte) : State :=
  (s.setReg vf flag).setReg x result

/-- The values of V0 to Vx inclusive, V0 first (20_memory.md R43). -/
def State.regsUpTo (s : State) (x : Reg) : List Byte := s.v.toList.take (x.val + 1)

/-- V0 to Vx inclusive <- MEM[base .. base+x], V[r] from MEM[base + r]; the registers above Vx keep
their values (20_memory.md R43). -/
def State.loadRegsUpTo (s : State) (x : Reg) (base : Nat) : State :=
  { s with v := Vector.ofFn fun r : Reg =>
      if r ≤ x then s.mem.read (base + r.val) else s.reg r }

/-- I <- w. -/
def State.setI (s : State) (w : Word) : State := { s with i := w }

/-- `zext_16` of an 8-bit or 12-bit value (30_encoding.md R63). -/
def zext16 {n : Nat} (b : BitVec n) : Word := b.zeroExtend 16

end Sys2Proof.Machine
end

