-- ==== Sys2Proof/Machine/Flags.lean ====
section
/-! DEFINITION. The values VF takes (10_state.md R11; 41_alu.md R111), each 0x00 or 0x01, computed
from operand values read before any write (R12). -/

namespace Sys2Proof.Machine

/-- A flag as the byte 0x00 or 0x01. -/
def flagByte (b : Bool) : Byte := if b then 0x01 else 0x00

/-- The 9-bit sum of two bytes (41_alu.md R106). -/
def sum9 (a b : Byte) : BitVec 9 := a.zeroExtend 9 + b.zeroExtend 9

/-- Carry out: bit 8 of the 9-bit sum (R106). -/
def carryFlag (a b : Byte) : Byte := flagByte (sum9 a b)[8]

/-- Not-borrow of `a - b`: 1 exactly when a >= b, unsigned (R107, R109). -/
def notBorrowFlag (a b : Byte) : Byte := flagByte (decide (b ≤ a))

/-- The bit a right shift by one shifts out (R108). -/
def shiftOutRight (a : Byte) : Byte := flagByte a[0]

/-- The bit a left shift by one shifts out, as 0 or 1 (R110). -/
def shiftOutLeft (a : Byte) : Byte := flagByte a[7]

end Sys2Proof.Machine
end

