-- ==== Sys2Proof/Machine/Alu.lean ====
section
/-! DEFINITION. Register load, arithmetic, logic, shift and random instructions (41_alu.md).
Operands are read before any write; the flag producers write VF first and the result second
(10_state.md R12). -/

namespace Sys2Proof.Machine

/-- `LD Vx, byte` (R100). -/
def execLdByte (x : Reg) (nn : Byte) (s : State) : StepResult := finish (s.setReg x nn)

/-- `ADD Vx, byte` (R101): wraps, no flag. -/
def execAddByte (x : Reg) (nn : Byte) (s : State) : StepResult :=
  finish (s.setReg x (s.reg x + nn))

/-- `LD Vx, Vy` (R102). -/
def execLdReg (x y : Reg) (s : State) : StepResult := finish (s.setReg x (s.reg y))

/-- `OR Vx, Vy` (R103): VF is not touched. -/
def execOr (x y : Reg) (s : State) : StepResult := finish (s.setReg x (s.reg x ||| s.reg y))

/-- `AND Vx, Vy` (R104): VF is not touched. -/
def execAnd (x y : Reg) (s : State) : StepResult := finish (s.setReg x (s.reg x &&& s.reg y))

/-- `XOR Vx, Vy` (R105): VF is not touched. -/
def execXor (x y : Reg) (s : State) : StepResult := finish (s.setReg x (s.reg x ^^^ s.reg y))

/-- `ADD Vx, Vy` (R106): VF is bit 8 of the 9-bit sum, Vx its low byte. -/
def execAddReg (x y : Reg) (s : State) : StepResult :=
  let a := s.reg x
  let b := s.reg y
  finish (s.setFlagThenReg (carryFlag a b) x ((sum9 a b).truncate 8))

/-- `SUB Vx, Vy` (R107). -/
def execSub (x y : Reg) (s : State) : StepResult :=
  let a := s.reg x
  let b := s.reg y
  finish (s.setFlagThenReg (notBorrowFlag a b) x (a - b))

/-- `SHR Vx` (R108): Vx in place, logical; Vy plays no part. -/
def execShr (x : Reg) (s : State) : StepResult :=
  let a := s.reg x
  finish (s.setFlagThenReg (shiftOutRight a) x (a >>> 1))

/-- `SUBN Vx, Vy` (R109): the result goes to Vy, and Vx is unchanged. -/
def execSubn (x y : Reg) (s : State) : StepResult :=
  let a := s.reg x
  let b := s.reg y
  finish (s.setFlagThenReg (notBorrowFlag b a) y (b - a))

/-- `SHL Vx` (R110): Vx in place; Vy plays no part. -/
def execShl (x : Reg) (s : State) : StepResult :=
  let a := s.reg x
  finish (s.setFlagThenReg (shiftOutLeft a) x (a <<< 1))

/-- `RND Vx, byte` (R112): a fresh free byte, masked. -/
def execRnd (x : Reg) (nn : Byte) (s : State) : StepResult :=
  let (r, s') := s.drawRnd
  finish (s'.setReg x (r &&& nn))

end Sys2Proof.Machine
end

