-- ==== Sys2Proof/Machine/ControlFlow.lean ====
section
/-! DEFINITION. The control-flow instructions (40_control_flow.md). On entry PC is A + 2, A the
instruction's own address (10_state.md R15). -/

namespace Sys2Proof.Machine

/-- `RET` (R80): the underflow test comes first; PC <- the popped entry. -/
def execRet (s : State) : StepResult :=
  match s.pop with
  | none => raise .stackUnderflow s
  | some (target, s') => finish (s'.jump target)

/-- `JP addr` (R81). -/
def execJp (addr : BitVec 12) (s : State) : StepResult := finish (s.jump (zext16 addr))

/-- `CALL addr` (R82): the overflow test comes first; the value pushed is A + 2. -/
def execCall (addr : BitVec 12) (s : State) : StepResult :=
  match s.push s.pc with
  | none => raise .stackOverflow s
  | some s' => finish (s'.jump (zext16 addr))

/-- `SE Vx, byte` (R83). -/
def execSeByte (x : Reg) (nn : Byte) (s : State) : StepResult :=
  finish (s.skipIf (s.reg x == nn))

/-- `SNE Vx, byte` (R84). -/
def execSneByte (x : Reg) (nn : Byte) (s : State) : StepResult :=
  finish (s.skipIf (s.reg x != nn))

/-- `SE Vx, Vy` (R85). -/
def execSeReg (x y : Reg) (s : State) : StepResult :=
  finish (s.skipIf (s.reg x == s.reg y))

/-- `SNE Vx, Vy` (R86). -/
def execSneReg (x y : Reg) (s : State) : StepResult :=
  finish (s.skipIf (s.reg x != s.reg y))

/-- `JP V0, addr` (R87): the sum is not reduced to 12 bits. -/
def execJpV0 (addr : BitVec 12) (s : State) : StepResult :=
  finish (s.jump (zext16 addr + zext16 (s.reg v0)))

end Sys2Proof.Machine
end

