-- ==== Sys2Proof/Machine/PixelEngine.lean ====
section
/-! DEFINITION. The pixel-write engine (10_state.md R23; 43_display.md R141). -/

namespace Sys2Proof.Machine

/-- FB[64*y + x], the pixel at column `x`, row `y`. -/
def Framebuffer.pixel (fb : Framebuffer) (x : Fin 64) (y : Fin 32) : Bool := fb[y].getLsbD x.val

/-- FB[64*y + x] <- FB[64*y + x] XOR 1. -/
def Framebuffer.toggle (fb : Framebuffer) (x : Fin 64) (y : Fin 32) : Framebuffer :=
  fb.set y (fb[y] ^^^ BitVec.twoPow 64 x.val)

/-- All pixels 0. -/
def Framebuffer.clear : Framebuffer := Vector.replicate 32 0

/-- The framebuffer and the collision found so far while a sprite is drawn. -/
structure Canvas where
  fb : Framebuffer
  hit : Bool
  deriving DecidableEq, Repr

/-- Toggle one pixel, noting a collision if it was set. -/
def Canvas.toggle (d : Canvas) (x : Fin 64) (y : Fin 32) : Canvas :=
  { fb := d.fb.toggle x y, hit := d.hit || d.fb.pixel x y }

/-- The column of sprite column `c`: (x0 + c) mod 64. -/
def spriteColumn (x0 : Byte) (c : Nat) : Fin 64 := ⟨(x0.toNat + c) % 64, Nat.mod_lt _ (by decide)⟩

/-- The row of sprite row `r`: (y0 + r) mod 32. -/
def spriteRow (y0 : Byte) (r : Nat) : Fin 32 := ⟨(y0.toNat + r) % 32, Nat.mod_lt _ (by decide)⟩

/-- Columns `c`, `c + 1`, … of sprite row `r`, `k` of them, left to right; column `c` is bit 7 - c
("MSB first"). -/
def Canvas.drawColumns (x0 y0 : Byte) (r : Nat) (row : Byte) : Nat → Nat → Canvas → Canvas
  | 0, _, d => d
  | k + 1, c, d =>
    Canvas.drawColumns x0 y0 r row k (c + 1)
      (if row.getLsbD (7 - c) then d.toggle (spriteColumn x0 c) (spriteRow y0 r) else d)

/-- Sprite rows `r`, `r + 1`, …, top to bottom, eight columns each. -/
def Canvas.drawRows (x0 y0 : Byte) : Nat → List Byte → Canvas → Canvas
  | _, [], d => d
  | r, row :: rows, d => Canvas.drawRows x0 y0 (r + 1) rows (d.drawColumns x0 y0 r row 8 0)

/-- The whole sprite, drawn with its top left corner at (x0, y0). -/
def drawSprite (x0 y0 : Byte) (rows : List Byte) (fb : Framebuffer) : Canvas :=
  Canvas.drawRows x0 y0 0 rows { fb := fb, hit := false }

end Sys2Proof.Machine
end

