-- ==== Sys2Proof/Machine/Display.lean ====
section
/-! DEFINITION. Display instructions (43_display.md). -/

namespace Sys2Proof.Machine

/-- `CLS` (R140): DRAW is set even if the framebuffer was clear. -/
def execCls (s : State) : StepResult := finish { s with fb := Framebuffer.clear, draw := true }

/-- `DRW Vx, Vy, n` (R141): everything is read first; VF is written once, at the end; DRAW is set
every time. -/
def execDrw (x y : Reg) (n : Fin 16) (s : State) : StepResult :=
  withinMemory s s.i.toNat n.val <|
    let rows := s.mem.readBytes s.i.toNat n.val
    let d := drawSprite (s.reg x) (s.reg y) rows s.fb
    finish { s.setReg vf (flagByte d.hit) with fb := d.fb, draw := true }

end Sys2Proof.Machine
end

