-- ==== Sys2Proof/Machine/IndexMemory.lean ====
section
/-! DEFINITION. Index-register and memory instructions (42_index_memory.md). I is a base that no
access changes (R126). -/

namespace Sys2Proof.Machine

/-- `LD I, addr` (R120). -/
def execLdI (addr : BitVec 12) (s : State) : StepResult := finish (s.setI (zext16 addr))

/-- `ADD I, Vx` (R121): wraps at 16 bits, no flag. -/
def execAddI (x : Reg) (s : State) : StepResult := finish (s.setI (s.i + zext16 (s.reg x)))

/-- `LD F, Vx` (R122): the formula, unmasked; memory is not accessed. -/
def execLdF (x : Reg) (s : State) : StepResult :=
  finish (s.setI (BitVec.ofNat 16 Config.glyphBase + 5 * zext16 (s.reg x)))

/-- The decimal digits of a byte, hundreds first, one a byte (R123). -/
def bcdDigits (a : Byte) : List Byte := [a / 100, a / 10 % 10, a % 10]

/-- `LD B, Vx` (R123). -/
def execLdB (x : Reg) (s : State) : StepResult :=
  withinMemory s s.i.toNat 3 (finish (s.storeBytes s.i.toNat (bcdDigits (s.reg x))))

/-- `LD [I], Vx` (R124): V0 to Vx inclusive; I is unchanged. -/
def execStoreRegs (x : Reg) (s : State) : StepResult :=
  withinMemory s s.i.toNat (x.val + 1) (finish (s.storeBytes s.i.toNat (s.regsUpTo x)))

/-- `LD Vx, [I]` (R125): V0 to Vx inclusive; I is unchanged. -/
def execLoadRegs (x : Reg) (s : State) : StepResult :=
  withinMemory s s.i.toNat (x.val + 1) (finish (s.loadRegsUpTo x s.i.toNat))

end Sys2Proof.Machine
end

