-- ==== Sys2Proof/Machine/KeypadTimers.lean ====
section
/-! DEFINITION. Keypad and timer instructions (44_keypad_timers.md). The timer pass comes after
them, in the same step (R156). -/

namespace Sys2Proof.Machine

/-- `SKP Vx` (R150). -/
def execSkp (x : Reg) (s : State) : StepResult :=
  withKey s (s.reg x) fun pressed => finish (s.skipIf pressed)

/-- `SKNP Vx` (R151). -/
def execSknp (x : Reg) (s : State) : StepResult :=
  withKey s (s.reg x) fun pressed => finish (s.skipIf !pressed)

/-- `LD Vx, DT` (R152): DT before this step's timer pass. -/
def execLdVxDt (x : Reg) (s : State) : StepResult := finish (s.setReg x s.dt)

/-- `LD Vx, K` (R153): with no key pressed, back to the instruction's own address; else the least
pressed key. OK in both cases. -/
def execLdVxK (x : Reg) (s : State) : StepResult :=
  match firstPressed s.key with
  | none => finish (s.jump (s.pc - 2))
  | some k => finish (s.setReg x (BitVec.ofNat 8 k.val))

/-- `LD DT, Vx` (R154). -/
def execLdDtVx (x : Reg) (s : State) : StepResult := finish { s with dt := s.reg x }

/-- `LD ST, Vx` (R155). -/
def execLdStVx (x : Reg) (s : State) : StepResult := finish { s with st := s.reg x }

end Sys2Proof.Machine
end

