-- ==== Sys2Proof/Machine/Step.lean ====
section
/-! DEFINITION. One step (60_exceptions.md R170), and placing an instruction where the next step
fetches it. -/

namespace Sys2Proof.Machine

/-- `step`: fetch, advance PC by 2, decode, execute, timer pass (R170). The first failure met is
the one reported (R181); the timer pass runs in every case (R184). -/
def step (s : State) : Host.Outcome State Fault Refusal :=
  endStep <|
    match fetchWord s with
    | none => reportFetchFault s
    | some op =>
      match decodeWord op with
      | .error _ => reportDecodeError op s.advance
      | .ok i => exec i s.advance

/-- `s` with the instruction word `w` stored where `step` fetches next, high byte first. Where PC is
no address a fetch can start at, PC becomes the load address first (log 9, log 10). -/
def State.withFetchWord (s : State) (_nbits w : Nat) : State :=
  let s := if s.pc.toNat ≤ 0x0FFE then s else s.jump 0x0200
  s.storeBytes s.pc.toNat [hiByte (BitVec.ofNat 16 w), loByte (BitVec.ofNat 16 w)]

end Sys2Proof.Machine
end

