-- ==== Sys2Proof/Machine/HostOps.lean ====
section
/-! DEFINITION. The operations of the host, each atomic and between steps (60_exceptions.md R171;
70_reset_and_hazards.md R212). -/

namespace Sys2Proof.Machine

/-- `reset` (70_reset_and_hazards.md R200): every element of state takes its reset value. The two
inputs are not state of the core and are left alone: the key levels, and the place reached in the
sequence of random bytes (log 4, log 5). -/
def hostReset (s : State) : State :=
  { State.reset with key := s.key, rndCount := s.rndCount }

/-- The result of `load` (60_exceptions.md R180). -/
inductive LoadResult where
  | ok
  | loadError
  deriving DecidableEq, Repr

/-- `load(bytes)` (70_reset_and_hazards.md R206 to R208): all or nothing, and nothing but MEM. -/
def load (bytes : List Byte) (s : State) : LoadResult × State :=
  if imageFits bytes then (.ok, s.storeBytes Config.progBase bytes) else (.loadError, s)

/-- The host drives one key: the source's `setKey(index, pressed)` (10_state.md R25). -/
def setKey (k : Fin 16) (pressed : Bool) (s : State) : State := { s with key := s.key.set k pressed }

/-- `draw_consume` (60_exceptions.md R187): returns DRAW, then DRAW <- 0. -/
def drawConsume (s : State) : Bool × State := (s.draw, { s with draw := false })

/-- `fb_read(p)` (R188): FB[p], column p mod 64, row p div 64. -/
def fbRead (p : Fin 2048) (s : State) : Bool :=
  s.fb.pixel ⟨p.val % 64, by omega⟩ ⟨p.val / 64, by omega⟩

/-- `mem_read(a)` (70_reset_and_hazards.md R209). -/
def memRead (a : Fin 4096) (s : State) : Byte := s.mem.read a.val

/-- `snd` (60_exceptions.md R185): 1 exactly when ST > 0. -/
def snd (s : State) : Bool := decide (0 < s.st)

/-- The numeric code of a step's result (60_exceptions.md R172). -/
def Status.code : Status → Nat
  | .ok => 0
  | .decodeError _ _ => 1
  | .stackOverflow _ => 2
  | .stackUnderflow _ => 3
  | .boundsFault _ _ _ => 4

/-- The numeric code of a `load`'s result (R172). -/
def LoadResult.code : LoadResult → Nat
  | .ok => 0
  | .loadError => 5

end Sys2Proof.Machine
end

