-- ==== Sys2Proof/Machine/Session.lean ====
section
/-! DEFINITION. The host's moves and the core's steps, one at a time in one total order: none
overlaps another (70_reset_and_hazards.md R212). A claim about a run in which keys change, programs
are loaded or the machine is reset is a claim about a list of moves. -/

namespace Sys2Proof.Machine

/-- The moves that change state (60_exceptions.md R171). -/
inductive Move where
  | step
  | reset
  | load (bytes : List Byte)
  | setKey (k : Fin 16) (pressed : Bool)
  | drawConsume
  deriving DecidableEq, Repr

/-- One move. A refused `load` leaves the state as it was (70_reset_and_hazards.md R207). -/
def applyMove (m : Move) (s : State) : StepResult :=
  match m with
  | .step => Sys2Proof.Machine.step s
  | .reset => .next (hostReset s)
  | .load bytes => .next (Sys2Proof.Machine.load bytes s).2
  | .setKey k pressed => .next (Sys2Proof.Machine.setKey k pressed s)
  | .drawConsume => .next (Sys2Proof.Machine.drawConsume s).2

/-- A session: the moves in order. -/
def applyMoves : List Move → State → StepResult
  | [], s => .next s
  | m :: ms, s =>
    match applyMove m s with
    | .next t => applyMoves ms t
    | .fault r => .fault r
    | .refused r => .refused r

end Sys2Proof.Machine
end

