-- ==== Sys2Proof/Safety.lean ====
section
/-! DEFINITION. What counts as a good run, the invariant of the machine, and the words the
statements use. -/

namespace Sys2Proof.Machine

/-- A good step: it returns OK. Any other status is a fault of the run (60_exceptions.md R179;
70_reset_and_hazards.md R205). -/
def GoodStep (s t : State) : Prop := step s = .next t ∧ t.status = some .ok

/-- `n` good steps, or none where one of them fails: a claim about a run says that this is `some`,
and says nothing of what comes after a failure (93_implementation_defined.md U2). -/
def goodRun : Nat → State → Option State
  | 0, s => some s
  | n + 1, s =>
    match step s with
    | .next t => if t.status = some .ok then goodRun n t else none
    | .fault _ => none
    | .refused _ => none

/-- The instruction the next step executes, if its fetch and decode succeed. -/
def nextInstr (s : State) : Option Instr :=
  match fetchWord s with
  | none => none
  | some w =>
    match decodeWord w with
    | .error _ => none
    | .ok i => some i

/-- Idle: the word at PC is a `JP` to its own address (70_reset_and_hazards.md R205). -/
def State.idle (s : State) : Prop :=
  ∃ addr : BitVec 12, nextInstr s = some (.jp addr) ∧ addr.toNat = s.pc.toNat

/-- The invariant: memory is in its canonical form; PC is at most 0x10FE; and every return address
in use is at most 0x1000 (10_state.md R14). -/
structure State.Inv (s : State) : Prop where
  mem : s.mem.wf = true
  pc : s.pc.toNat ≤ 0x10FE
  stack : ∀ j : Fin 16, j.val < s.sp.val → s.stack[j].toNat ≤ 0x1000

/-! ### Words of the statements -/

/-- Every word of the row (`mask`, `pattern`) decodes to `f` of it. -/
def DecodesTo (mask pattern : Word) (f : Word → Instr) : Prop :=
  ∀ w : Word, w &&& mask = pattern → decodeWord w = .ok (f w)

/-- The registers an instruction names as destinations (the table of 10_state.md section 2). -/
def destRegs : Instr → List Reg
  | .ldByte x _ | .addByte x _ | .rnd x _ => [x]
  | .ldReg x _ | .or x _ | .and x _ | .xor x _ | .addReg x _ | .sub x _ => [x]
  | .shr x | .shl x | .ldVxDt x | .ldVxK x => [x]
  | .subn _ y => [y]
  | .loadRegs x => (List.finRange 16).filter fun r => r ≤ x
  | .cls | .ret | .jp _ | .call _ | .seByte _ _ | .sneByte _ _ | .seReg _ _ | .sneReg _ _ => []
  | .ldI _ | .jpV0 _ | .drw _ _ _ | .skp _ | .sknp _ | .ldDtVx _ | .ldStVx _ | .addI _ => []
  | .ldF _ | .ldB _ | .storeRegs _ => []

/-- The six instructions that write VF as a side effect (10_state.md R11). -/
def writesFlag : Instr → Bool
  | .addReg _ _ | .sub _ _ | .subn _ _ | .shr _ | .shl _ | .drw _ _ _ => true
  | _ => false

/-- The eleven instructions that can change PC beyond the pre-increment (40_control_flow.md R88). -/
def changesPc : Instr → Bool
  | .ret | .jp _ | .call _ | .jpV0 _ | .ldVxK _ => true
  | .seByte _ _ | .sneByte _ _ | .seReg _ _ | .sneReg _ _ | .skp _ | .sknp _ => true
  | _ => false

/-- The three instructions that see the keypad (60_exceptions.md R186). -/
def seesKeys : Instr → Bool
  | .skp _ | .sknp _ | .ldVxK _ => true
  | _ => false

/-- Bit `c` (0 is the leftmost column) of row `r` of the sprite at I is set (43_display.md R141). -/
def spriteBit (s : State) (r c : Nat) : Prop := (s.mem.read (s.i.toNat + r)).getLsbD (7 - c) = true

/-- The sprite of `n` rows drawn from (Vx, Vy) covers the pixel at column `px`, row `py`
(43_display.md R141). -/
def spriteCovers (s : State) (x y : Reg) (n : Nat) (px : Fin 64) (py : Fin 32) : Prop :=
  ∃ r < n, ∃ c < 8, spriteBit s r c ∧
    px.val = ((s.reg x).toNat + c) % 64 ∧ py.val = ((s.reg y).toNat + r) % 32

end Sys2Proof.Machine
end

