-- ==== Sys2Proof/Certificates/Slice0/Obligations.lean ====
section
/-! DEFINITION. The statements for the provers, each from the numbered rules of spec/ it cites.
In a statement about `exec`, PC of the state before is A + 2, A the instruction's own address
(10_state.md R15), so `s.pc - 2` is A. "D<n>" names a decision of 92_eei_decisions.md, which the spec
calls its own choice: a clause that rests on one says so, and the log entry that follows it. The
numbers of the encodings are the spec's general knowledge (D10, log 11). -/

open Sys2Proof Sys2Proof.Machine

/-! ### Encoding and decoding -/

/-- Decoding the bytes the encoder writes gives the instruction back, every operand at every value,
and leaves the bytes after it (30_encoding.md R60 to R73). -/
def Obligations.DecodeInvertsEncode : Prop :=
  ∀ (i : Instr) (rest : List Byte), decode (encodeBytes i ++ rest) = .ok (i, rest)

/-- The 34 rows have the masks and patterns of the rule's table, in its order; the decoder and the
table agree; and the rows are disjoint (30_encoding.md R73; the numbers are D10's, log 11). -/
def Obligations.DecoderAgreesWithOpcodeTable : Prop :=
  (opcodeTable.map fun r => (r.mask.toNat, r.pattern.toNat)) =
    [(0xFFFF, 0x00E0), (0xFFFF, 0x00EE), (0xF000, 0x1000), (0xF000, 0x2000), (0xF000, 0x3000),
      (0xF000, 0x4000), (0xF000, 0x5000), (0xF000, 0x6000), (0xF000, 0x7000)] ++
    [(0xF00F, 0x8000), (0xF00F, 0x8001), (0xF00F, 0x8002), (0xF00F, 0x8003), (0xF00F, 0x8004),
      (0xF00F, 0x8005), (0xF00F, 0x8006), (0xF00F, 0x8007), (0xF00F, 0x800E)] ++
    [(0xF000, 0x9000), (0xF000, 0xA000), (0xF000, 0xB000), (0xF000, 0xC000), (0xF000, 0xD000),
      (0xF0FF, 0xE09E), (0xF0FF, 0xE0A1)] ++
    [(0xF0FF, 0xF007), (0xF0FF, 0xF00A), (0xF0FF, 0xF015), (0xF0FF, 0xF018), (0xF0FF, 0xF01E),
      (0xF0FF, 0xF029), (0xF0FF, 0xF033), (0xF0FF, 0xF055), (0xF0FF, 0xF065)] ∧
  (∀ (w : Word) (i : Instr), decodeWord w = .ok i →
    i.row ∈ opcodeTable ∧ w &&& i.row.mask = i.row.pattern) ∧
  (∀ w : Word, legalWord w = true → ∃ i, decodeWord w = .ok i) ∧
  (∀ w : Word, ∀ r ∈ opcodeTable, ∀ r' ∈ opcodeTable,
    w &&& r.mask = r.pattern → w &&& r'.mask = r'.pattern → r = r')

/-- Two words decode to the same instruction exactly when they differ in ignored bits only: N in
groups 5 and 9, Y in SHR and SHL, and no other bit (30_encoding.md R70, which the spec derives; N by
D9, log 12). -/
def Obligations.IgnoredBitsAreExactlyTheListed : Prop :=
  (∀ (w w' : Word) (i : Instr), decodeWord w = .ok i →
    (decodeWord w' = .ok i ↔ (w ^^^ w') &&& ~~~(ignoredBits i) = 0)) ∧
  (∀ i : Instr, ignoredBits i =
    if (∃ x y, i = .seReg x y ∨ i = .sneReg x y) then 0x000F
    else if (∃ x, i = .shr x ∨ i = .shl x) then 0x00F0 else 0x0000)

/-- The words the decoder rejects, group by group (30_encoding.md R71; the rule's counts of words
are not stated). -/
def Obligations.IllegalWordsByGroup : Prop :=
  ∀ w : Word, (∃ r, decodeWord w = .error r) ↔
    ((fieldC w).toNat = 0x0 ∧ w ≠ 0x00E0 ∧ w ≠ 0x00EE) ∨
    ((fieldC w).toNat = 0x8 ∧ (fieldN w).toNat ∈ [0x8, 0x9, 0xA, 0xB, 0xC, 0xD, 0xF]) ∨
    ((fieldC w).toNat = 0xE ∧ (fieldNN w).toNat ∉ [0x9E, 0xA1]) ∨
    ((fieldC w).toNat = 0xF ∧
      (fieldNN w).toNat ∉ [0x07, 0x0A, 0x15, 0x18, 0x1E, 0x29, 0x33, 0x55, 0x65])

/-- Group 0 holds the two words 00E0 and 00EE; every other word of it, 0000 among them, is a
DecodeError, so that unloaded memory is one (30_encoding.md R72; D8, log 12; memory zero at reset is
D13, log 7). -/
def Obligations.GroupZeroMatchesAllSixteenBits : Prop :=
  (∀ w : Word, (fieldC w).toNat = 0 →
    (decodeWord w = .ok .cls ↔ w = 0x00E0) ∧ (decodeWord w = .ok .ret ↔ w = 0x00EE) ∧
    (w ≠ 0x00E0 → w ≠ 0x00EE → decodeWord w = .error (.group0 w))) ∧
  (∃ t, step State.reset = .next t ∧ t.status = some (.decodeError 0x0000 0x0200))

/-- Words written out from the encodings of the spec, one of each family and the corner cases
(95_test_vectors.md section 2.1). -/
def Obligations.SampleWordsDecode : Prop :=
  decodeWord 0x00E0 = .ok .cls ∧ decodeWord 0x2ABC = .ok (.call 0xABC) ∧
  decodeWord 0x3A7F = .ok (.seByte 0xA 0x7F) ∧ decodeWord 0x5AB7 = .ok (.seReg 0xA 0xB) ∧
  decodeWord 0x8AB7 = .ok (.subn 0xA 0xB) ∧ decodeWord 0x8ABE = .ok (.shl 0xA) ∧
  decodeWord 0xD125 = .ok (.drw 0x1 0x2 5) ∧ decodeWord 0xE1A1 = .ok (.sknp 0x1) ∧
  decodeWord 0xF165 = .ok (.loadRegs 0x1) ∧ decodeWord 0x8AB8 = .error (.group8 0x8) ∧
  decodeWord 0xF175 = .error (.groupF 0x75)

/-- The fetch reads two bytes and puts the one at the lower address high, wherever PC is at most
0x0FFE (20_memory.md R42). -/
def Obligations.FetchIsBigEndian : Prop :=
  ∀ s : State, s.pc.toNat ≤ 0x0FFE → ∃ op, fetchWord s = some op ∧
    op.toNat = (s.mem.read s.pc.toNat).toNat * 256 + (s.mem.read (s.pc.toNat + 1)).toNat

/-- The six fields of a word, and of its two bytes as fetched (30_encoding.md R61). -/
def Obligations.FieldsOfAnInstructionWord : Prop :=
  (∀ w : Word, (fieldC w).toNat = w.toNat / 4096 ∧ (fieldX w).val = w.toNat / 256 % 16 ∧
    (fieldY w).val = w.toNat / 16 % 16 ∧ (fieldN w).toNat = w.toNat % 16 ∧
    (fieldNN w).toNat = w.toNat % 256 ∧ (fieldNNN w).toNat = w.toNat % 4096) ∧
  ∀ hi lo : Byte, (fieldC (joinBytes hi lo)).toNat = hi.toNat / 16 ∧
    (fieldX (joinBytes hi lo)).val = hi.toNat % 16 ∧
    (fieldY (joinBytes hi lo)).val = lo.toNat / 16 ∧
    (fieldN (joinBytes hi lo)).toNat = lo.toNat % 16 ∧ fieldNN (joinBytes hi lo) = lo ∧
    (fieldNNN (joinBytes hi lo)).toNat = hi.toNat % 16 * 256 + lo.toNat

/-! ### Reset, load and the other moves of the host -/

/-- The state after `reset`, whatever the state before (70_reset_and_hazards.md R200). The last two
clauses also fix what the rule leaves open and the model chose: the stack entries after reset (log 6),
the status after reset (log 2), and that the count of random bytes is kept (log 5). I, DRAW and the
zeros of memory are D12, D15 and D13 (log 7), the glyph bytes D11 (log 11), and that reset leaves the
keys alone D14 (log 4). -/
def Obligations.ResetStateWhateverCameBefore : Prop :=
  ∀ s : State,
    (∀ r, (hostReset s).reg r = 0) ∧ (hostReset s).pc = 0x0200 ∧ (hostReset s).sp = 0 ∧
    (hostReset s).dt = 0 ∧ (hostReset s).st = 0 ∧ snd (hostReset s) = false ∧
    (∀ p, fbRead p (hostReset s) = false) ∧ (hostReset s).i = 0 ∧ (hostReset s).draw = false ∧
    (∀ a : Fin 4096, memRead a (hostReset s) =
      if 0x050 ≤ a.val ∧ a.val ≤ 0x09F then
        ([0xF0, 0x90, 0x90, 0x90, 0xF0, 0x20, 0x60, 0x20, 0x20, 0x70,
          0xF0, 0x10, 0xF0, 0x80, 0xF0, 0xF0, 0x10, 0xF0, 0x10, 0xF0,
          0x90, 0x90, 0xF0, 0x10, 0x10, 0xF0, 0x80, 0xF0, 0x10, 0xF0,
          0xF0, 0x80, 0xF0, 0x90, 0xF0, 0xF0, 0x10, 0x20, 0x40, 0x40,
          0xF0, 0x90, 0xF0, 0x90, 0xF0, 0xF0, 0x90, 0xF0, 0x10, 0xF0,
          0xF0, 0x90, 0xF0, 0x90, 0x90, 0xE0, 0x90, 0xE0, 0x90, 0xE0,
          0xF0, 0x80, 0x80, 0x80, 0xF0, 0xE0, 0x90, 0x90, 0x90, 0xE0,
          0xF0, 0x80, 0xF0, 0x80, 0xF0, 0xF0, 0x80, 0xF0, 0x80, 0x80] : List Byte).getD
            (a.val - 0x050) 0
      else 0) ∧
    (hostReset s).key = s.key ∧
    (∀ s' : State, s'.key = s.key → s'.rndCount = s.rndCount → hostReset s' = hostReset s) ∧
    hostReset State.reset = State.reset

/-- `load` copies an image of at most 3584 bytes to 0x200 and returns OK; an empty one writes
nothing; a longer one is a LoadError and changes nothing (70_reset_and_hazards.md R206, R207). -/
def Obligations.LoadCopiesTheImageOrRefuses : Prop :=
  ∀ (bytes : List Byte) (s : State), s.mem.wf = true →
    (bytes.length ≤ 3584 → (load bytes s).1 = .ok ∧
      ∀ k < bytes.length, (load bytes s).2.mem.read (0x200 + k) = bytes.getD k 0) ∧
    load [] s = (.ok, s) ∧ (bytes.length > 3584 → load bytes s = (.loadError, s))

/-- `load` writes the bytes of the image and nothing else; loading it again changes nothing; a
second image stands where it reaches, with the tail of the first after it
(70_reset_and_hazards.md R208; that the tail stays is D13, log 7). -/
def Obligations.LoadWritesOnlyTheImage : Prop :=
  ∀ (p q : List Byte) (s : State), s.mem.wf = true → p.length ≤ 3584 → q.length ≤ 3584 →
    (load p s).2 = { s with mem := (load p s).2.mem } ∧
    (∀ a, a < 0x200 ∨ 0x200 + p.length ≤ a → (load p s).2.mem.read a = s.mem.read a) ∧
    load p (load p s).2 = (.ok, (load p s).2) ∧
    (∀ a, (load q (load p s).2).2.mem.read a =
      if 0x200 ≤ a ∧ a < 0x200 + q.length then q.getD (a - 0x200) 0
      else if 0x200 ≤ a ∧ a < 0x200 + p.length then p.getD (a - 0x200) 0 else s.mem.read a)

/-- The redraw flag: `draw_consume` returns it and clears it and changes nothing else; the core
sets it in CLS and DRW only and never clears it (60_exceptions.md R187). -/
def Obligations.RedrawFlagIsSetByDisplayAndClearedByHost : Prop :=
  (∀ s : State, (drawConsume s).1 = s.draw ∧ (drawConsume s).2 = { s with draw := false }) ∧
  (∀ s t : State, step s = .next t → t.draw = s.draw ∨ (t.draw = true ∧
    (nextInstr s = some .cls ∨ ∃ x y n, nextInstr s = some (.drw x y n))))

/-! ### The step -/

/-- When the bytes at PC decode to an instruction, the step is that instruction run with PC
advanced by 2, and then the timer pass (60_exceptions.md R170). -/
def Obligations.StepRunsTheDecodedInstruction : Prop :=
  ∀ (s t : State) (i : Instr), s.pc.toNat ≤ 0x0FFE →
    decode [s.mem.read s.pc.toNat, s.mem.read (s.pc.toNat + 1)] = .ok (i, []) →
    exec i { s with pc := s.pc + 2 } = .next t →
    step s = .next { t with
      dt := BitVec.ofNat 8 (t.dt.toNat - 1)
      st := BitVec.ofNat 8 (t.st.toNat - 1) }

/-- A word placed with `withFetchWord` is the one the next step runs: the model's own rendering of
a load (log 9). -/
def Obligations.PlacedWordIsFetchedNext : Prop :=
  ∀ (s : State) (w : Nat) (i : Instr), s.mem.wf = true → decodeTableWord 16 w = some i →
    nextInstr (s.withFetchWord 16 w) = some i ∧
    (s.pc.toNat ≤ 0x0FFE → s.withFetchWord 16 w = { s with mem := (s.withFetchWord 16 w).mem } ∧
      ∀ a, a ≠ s.pc.toNat → a ≠ s.pc.toNat + 1 → (s.withFetchWord 16 w).mem.read a = s.mem.read a)

/-- A step is always possible, and an instruction that is not one of the eleven control transfers
ends with PC at A + 2 (40_control_flow.md R89, which the spec derives, with R88's list). That a
failure too has a next state is D3 (log 1). -/
def Obligations.EveryStepHasANextState : Prop :=
  (∀ s : State, ∃ t, step s = .next t) ∧
  (∀ (s t : State) (i : Instr), nextInstr s = some i → changesPc i = false → step s = .next t →
    t.pc = s.pc + 2)

/-- The state after a failing step: only the timers have moved, and PC by 2 unless it was the fetch
that failed (60_exceptions.md R175; D3, log 1; that the timers move is D4, log 12). -/
def Obligations.FailingStepWritesNothing : Prop :=
  ∀ s t : State, step s = .next t → t.status ≠ some .ok →
    (fetchWord s = none ∧ t = { s with
      dt := BitVec.ofNat 8 (s.dt.toNat - 1)
      st := BitVec.ofNat 8 (s.st.toNat - 1)
      status := t.status }) ∨
    (fetchWord s ≠ none ∧ t = { s with
      pc := s.pc + 2
      dt := BitVec.ofNat 8 (s.dt.toNat - 1)
      st := BitVec.ofNat 8 (s.st.toNat - 1)
      status := t.status })

/-- Which instruction can raise what, and when; the list is exhaustive (60_exceptions.md R173, which
the spec derives; the BoundsFaults are D5 and D6, log 12). -/
def Obligations.FailureCausesAreExhaustive : Prop :=
  ∀ (i : Instr) (s t : State), exec i s = .next t → t.status ≠ some .ok →
    ((∃ a, i = .call a) ∧ s.sp.val = 16 ∧ t.status = some (.stackOverflow (s.pc - 2))) ∨
    (i = .ret ∧ s.sp.val = 0 ∧ t.status = some (.stackUnderflow (s.pc - 2))) ∨
    (((∃ x, i = .ldB x ∧ s.i.toNat + 2 > 0x0FFF) ∨
      (∃ x, (i = .storeRegs x ∨ i = .loadRegs x) ∧ s.i.toNat + x.val > 0x0FFF) ∨
      (∃ x y n, i = .drw x y n ∧ n.val ≥ 1 ∧ s.i.toNat + n.val - 1 > 0x0FFF)) ∧
      ∃ index, t.status = some (.boundsFault .data index (s.pc - 2))) ∨
    (∃ x, (i = .skp x ∨ i = .sknp x) ∧ (s.reg x).toNat > 15 ∧
      t.status = some (.boundsFault .key (s.reg x).toNat (s.pc - 2)))

/-- DecodeError is raised for exactly the fetched words that are no instruction, and its step leaves
PC at A + 2 and nothing else changed but the timers (60_exceptions.md R176, R175 (b); D3, log 1; the
timers D4, log 12). -/
def Obligations.DecodeErrorExactlyForIllegalWords : Prop :=
  ∀ s t : State, step s = .next t →
    ((∃ op addr, t.status = some (.decodeError op addr)) ↔
      ∃ w, fetchWord s = some w ∧ legalWord w = false) ∧
    (∀ w, fetchWord s = some w → legalWord w = false → t = { s with
      pc := s.pc + 2
      dt := BitVec.ofNat 8 (s.dt.toNat - 1)
      st := BitVec.ofNat 8 (s.st.toNat - 1)
      status := some (.decodeError w s.pc) })

/-- CALL with a full stack and RET with an empty one fail, and leave PC at A + 2, the stack and its
pointer unchanged (60_exceptions.md R177, R178; D3, log 1; the timers D4, log 12). -/
def Obligations.StackFailuresLeaveTheStackAlone : Prop :=
  (∀ (s : State) (addr : BitVec 12), nextInstr s = some (.call addr) → s.sp = 16 →
    step s = .next { s with
      pc := s.pc + 2
      dt := BitVec.ofNat 8 (s.dt.toNat - 1)
      st := BitVec.ofNat 8 (s.st.toNat - 1)
      status := some (.stackOverflow s.pc) }) ∧
  (∀ s : State, nextInstr s = some .ret → s.sp = 0 →
    step s = .next { s with
      pc := s.pc + 2
      dt := BitVec.ofNat 8 (s.dt.toNat - 1)
      st := BitVec.ofNat 8 (s.st.toNat - 1)
      status := some (.stackUnderflow s.pc) })

/-- A step that begins with PC > 0x0FFE is a fetch BoundsFault and leaves PC unchanged; PC comes to
exceed 0x0FFF only by `JP V0`, by the pre-increment or a skip at the top of memory, or by a `RET`
that restores such a value (10_state.md R14, which the spec derives; the BoundsFault is D5,
log 12). -/
def Obligations.PcAboveMemoryComesOnlyFromThreeSources : Prop :=
  (∀ s t : State, s.pc.toNat > 0x0FFE → step s = .next t →
    t.pc = s.pc ∧ ∃ index, t.status = some (.boundsFault .fetch index s.pc)) ∧
  (∀ s t : State, s.pc.toNat ≤ 0x0FFE → step s = .next t → t.pc.toNat > 0x0FFF →
    (∃ addr, nextInstr s = some (.jpV0 addr) ∧ t.pc.toNat ≤ 0x10FE) ∨
    (s.pc.toNat ≥ 0x0FFC ∧ t.pc.toNat ≤ 0x1002) ∨
    (nextInstr s = some .ret ∧ ∃ j : Fin 16, j.val + 1 = s.sp.val ∧ t.pc = s.stack[j]))

/-- The timer pass: in every step, failing or not, each timer goes down by one and never below 0,
from the value `LD DT` or `LD ST` has just written where the step ran one
(60_exceptions.md R183, R184; in a failing step D4, log 12). -/
def Obligations.TimersCountDownOncePerStep : Prop :=
  ∀ s t : State, step s = .next t →
    ((∀ x, nextInstr s ≠ some (.ldDtVx x)) → t.dt.toNat = s.dt.toNat - 1) ∧
    (∀ x, nextInstr s = some (.ldDtVx x) → t.dt.toNat = (s.reg x).toNat - 1) ∧
    ((∀ x, nextInstr s ≠ some (.ldStVx x)) → t.st.toNat = s.st.toNat - 1) ∧
    (∀ x, nextInstr s = some (.ldStVx x) → t.st.toNat = (s.reg x).toNat - 1)

/-- From an idle state every further step changes only DT and ST, toward 0, and returns OK
(70_reset_and_hazards.md R205). -/
def Obligations.IdleLoopChangesOnlyTheTimers : Prop :=
  ∀ (n : Nat) (s : State), s.idle → Host.Core.run Sys2Proof.core (n + 1) s =
    .next { s with
      dt := BitVec.ofNat 8 (s.dt.toNat - (n + 1))
      st := BitVec.ofNat 8 (s.st.toNat - (n + 1))
      status := some .ok }

/-! ### Invariants and whole-machine rules -/

/-- The reset state meets the invariant. -/
def Obligations.ResetMeetsTheInvariant : Prop := State.reset.Inv

/-- Every step keeps the invariant: memory canonical, PC at most 0x10FE, every return address in use
at most 0x1000 (10_state.md R14, R18, R19; the canonical form is the model's). -/
def Obligations.EveryStepKeepsTheInvariant : Prop :=
  ∀ s t : State, s.Inv → step s = .next t → t.Inv

/-- Every session of the host, in any order of steps, resets, loads, key changes and redraw
consumptions, keeps the invariant and always has a next state (70_reset_and_hazards.md R212). -/
def Obligations.EverySessionKeepsTheInvariant : Prop :=
  ∀ (moves : List Move) (s : State), s.Inv → ∃ t, applyMoves moves s = .next t ∧ t.Inv

/-- Stack entries at and above SP, the reset contents of all of them included, never influence
execution: two runs whose states differ in such entries alone stay so (10_state.md R18). -/
def Obligations.StaleStackEntriesNeverInfluenceExecution : Prop :=
  ∀ (n : Nat) (s t : State) (k : Vector Word 16),
    (∀ j : Fin 16, j.val < s.sp.val → k[j] = s.stack[j]) →
    Host.Core.run Sys2Proof.core n s = .next t →
    ∃ k' : Vector Word 16,
      Host.Core.run Sys2Proof.core n { s with stack := k } = .next { t with stack := k' } ∧
      ∀ j : Fin 16, j.val < t.sp.val → k'[j] = t.stack[j]

/-- The keypad is seen by SKP, SKNP and LD Vx, K only, and no instruction changes it
(60_exceptions.md R186; 10_state.md R25). -/
def Obligations.KeypadIsSeenByThreeInstructionsOnly : Prop :=
  (∀ s t : State, step s = .next t → t.key = s.key) ∧
  (∀ (i : Instr) (s t : State) (levels : Vector Bool 16), seesKeys i = false →
    exec i s = .next t → exec i { s with key := levels } = .next { t with key := levels })

/-- The framebuffer is seen by DRW only, through VF, and the redraw flag by no instruction
(43_display.md R142; 10_state.md R24). -/
def Obligations.FramebufferIsSeenByDrawOnly : Prop :=
  ∀ (i : Instr) (s t : State) (pixels : Framebuffer) (dirty : Bool), exec i s = .next t →
    (∃ d, exec i { s with draw := dirty } = .next { t with draw := d }) ∧
    ((∀ x y n, i ≠ .drw x y n) →
      ∃ f, exec i { s with fb := pixels } = .next { t with fb := f })

/-- A general register changes only if the instruction names it as a destination, or is VF under one
of the six flag writers (10_state.md R11 and the table of its section 2). -/
def Obligations.RegistersChangeOnlyAsDestinationOrFlag : Prop :=
  ∀ (i : Instr) (s t : State) (r : Reg), exec i s = .next t → r ∉ destRegs i →
    (r = vf → writesFlag i = false) → t.reg r = s.reg r

/-- Each of the six flag writers, when it completes and its result register is not VF, leaves 0x00
or 0x01 in VF (10_state.md R11). -/
def Obligations.FlagWritersWriteZeroOrOne : Prop :=
  ∀ (i : Instr) (s t : State), writesFlag i = true → vf ∉ destRegs i → exec i s = .next t →
    t.status = some .ok → t.reg vf = 0x00 ∨ t.reg vf = 0x01

/-- Who writes the special registers, memory and the framebuffer: whatever the instruction, each of
them is unchanged unless the spec names the instruction as a writer (10_state.md R17 to R25). The
clause on `rndCount` is about the model's own count of random bytes, which the spec does not have: that
RND alone advances it is the model's choice (log 5). -/
def Obligations.SpecialStateHasOnlyItsNamedWriters : Prop :=
  ∀ (i : Instr) (s t : State), exec i s = .next t →
    ((∀ a, i ≠ .ldI a) → (∀ x, i ≠ .addI x) → (∀ x, i ≠ .ldF x) → t.i = s.i) ∧
    ((∀ a, i ≠ .call a) → t.stack = s.stack) ∧
    ((∀ x, i ≠ .ldDtVx x) → t.dt = s.dt) ∧ ((∀ x, i ≠ .ldStVx x) → t.st = s.st) ∧
    ((∀ x, i ≠ .ldB x) → (∀ x, i ≠ .storeRegs x) → t.mem = s.mem) ∧
    (i ≠ .cls → (∀ x y n, i ≠ .drw x y n) → t.fb = s.fb ∧ t.draw = s.draw) ∧
    ((∀ x nn, i ≠ .rnd x nn) → t.rndCount = s.rndCount) ∧ t.key = s.key

/-- SP starts at 0 and stays within 0 to 16; CALL moves it up by one after STACK[SP] is written, RET
down by one before STACK[SP] is read, and each fails at its end of the range before changing
anything; no other instruction writes SP or sees it (10_state.md R19). -/
def Obligations.StackPointerMovesOnlyByCallAndRet : Prop :=
  State.reset.sp.val = 0 ∧
  ∀ (i : Instr) (s t : State), exec i s = .next t →
    t.sp.val ≤ 16 ∧
    ((∀ a, i ≠ .call a) → i ≠ .ret → t.sp = s.sp ∧
      ∀ q : Fin 17, exec i { s with sp := q } = .next { t with sp := q }) ∧
    (∀ a, i = .call a → s.sp.val < 16 → t.sp.val = s.sp.val + 1 ∧
      ∀ j : Fin 16, j.val = s.sp.val → t.stack[j] = s.pc) ∧
    (∀ a, i = .call a → s.sp.val = 16 →
      t = { s with status := some (.stackOverflow (s.pc - 2)) }) ∧
    (i = .ret → 0 < s.sp.val → t.sp.val + 1 = s.sp.val ∧
      ∀ j : Fin 16, j.val = t.sp.val → t.pc = s.stack[j]) ∧
    (i = .ret → s.sp.val = 0 → t = { s with status := some (.stackUnderflow (s.pc - 2)) })

/-! ### Control flow (40_control_flow.md) -/

/-- JP goes to NNN and JP V0 to NNN + V0, the sum not reduced to 12 bits; nothing else changes
(R81, R87). -/
def Obligations.JumpsSetPcToTheirTarget : Prop :=
  DecodesTo 0xF000 0x1000 (fun w => .jp (fieldNNN w)) ∧
  DecodesTo 0xF000 0xB000 (fun w => .jpV0 (fieldNNN w)) ∧
  ∀ (addr : BitVec 12) (s : State),
    (∃ t, exec (.jp addr) s = .next t ∧ t = { s with pc := t.pc, status := some .ok } ∧
      t.pc.toNat = addr.toNat) ∧
    (∃ t, exec (.jpV0 addr) s = .next t ∧ t = { s with pc := t.pc, status := some .ok } ∧
      t.pc.toNat = addr.toNat + (s.reg 0).toNat)

/-- CALL with room on the stack pushes A + 2, raises SP and jumps to NNN; with none it fails and
nothing is pushed (R82). -/
def Obligations.CallPushesTheReturnAddress : Prop :=
  DecodesTo 0xF000 0x2000 (fun w => .call (fieldNNN w)) ∧
  ∀ (addr : BitVec 12) (s : State),
    (s.sp.val < 16 → ∃ t, exec (.call addr) s = .next t ∧
      t = { s with pc := t.pc, sp := t.sp, stack := t.stack, status := some .ok } ∧
      t.pc.toNat = addr.toNat ∧ t.sp.val = s.sp.val + 1 ∧
      ∀ j : Fin 16, t.stack[j] = if j.val = s.sp.val then s.pc else s.stack[j]) ∧
    (s.sp.val = 16 → exec (.call addr) s =
      .next { s with status := some (.stackOverflow (s.pc - 2)) })

/-- RET with an entry on the stack lowers SP and sets PC to that entry, which stays in the stack;
with none it fails (R80). -/
def Obligations.RetRestoresThePoppedAddress : Prop :=
  DecodesTo 0xFFFF 0x00EE (fun _ => .ret) ∧
  ∀ s : State,
    (0 < s.sp.val → ∃ t, exec .ret s = .next t ∧
      t = { s with pc := t.pc, sp := t.sp, status := some .ok } ∧ t.sp.val + 1 = s.sp.val ∧
      ∀ j : Fin 16, j.val = t.sp.val → t.pc = s.stack[j]) ∧
    (s.sp.val = 0 → exec .ret s = .next { s with status := some (.stackUnderflow (s.pc - 2)) })

/-- A RET that finds SP and the stack as a CALL left them resumes after that CALL
(40_control_flow.md R80, R82). -/
def Obligations.RetResumesAfterItsCall : Prop :=
  ∀ (addr : BitVec 12) (s t u : State), s.sp.val < 16 → exec (.call addr) s = .next t →
    u.sp = t.sp → (∀ j : Fin 16, j.val < t.sp.val → u.stack[j] = t.stack[j]) →
    ∃ r, exec .ret u = .next r ∧ r.status = some .ok ∧ r.pc = s.pc ∧ r.sp = s.sp

/-- SE and SNE with an immediate skip by 2 on equal and on different, and change nothing else
(R83, R84). -/
def Obligations.ByteSkipsCompareWithTheImmediate : Prop :=
  DecodesTo 0xF000 0x3000 (fun w => .seByte (fieldX w) (fieldNN w)) ∧
  DecodesTo 0xF000 0x4000 (fun w => .sneByte (fieldX w) (fieldNN w)) ∧
  ∀ (x : Reg) (nn : Byte) (s : State),
    exec (.seByte x nn) s =
      .next { s with pc := if s.reg x = nn then s.pc + 2 else s.pc, status := some .ok } ∧
    exec (.sneByte x nn) s =
      .next { s with pc := if s.reg x = nn then s.pc else s.pc + 2, status := some .ok }

/-- SE and SNE with two registers skip by 2 on equal and on different, N ignored, and change nothing
else (R85, R86; N ignored is D9, log 12). -/
def Obligations.RegisterSkipsCompareTwoRegisters : Prop :=
  DecodesTo 0xF000 0x5000 (fun w => .seReg (fieldX w) (fieldY w)) ∧
  DecodesTo 0xF000 0x9000 (fun w => .sneReg (fieldX w) (fieldY w)) ∧
  ∀ (x y : Reg) (s : State),
    exec (.seReg x y) s =
      .next { s with pc := if s.reg x = s.reg y then s.pc + 2 else s.pc, status := some .ok } ∧
    exec (.sneReg x y) s =
      .next { s with pc := if s.reg x = s.reg y then s.pc else s.pc + 2, status := some .ok }

/-! ### Registers, arithmetic, logic, shifts, random (41_alu.md) -/

/-- LD Vx, byte, ADD Vx, byte and LD Vx, Vy write Vx and nothing else, ADD modulo 256 and without a
flag (R100, R101, R102). -/
def Obligations.LoadsAndImmediateAddWriteVxOnly : Prop :=
  DecodesTo 0xF000 0x6000 (fun w => .ldByte (fieldX w) (fieldNN w)) ∧
  DecodesTo 0xF000 0x7000 (fun w => .addByte (fieldX w) (fieldNN w)) ∧
  DecodesTo 0xF00F 0x8000 (fun w => .ldReg (fieldX w) (fieldY w)) ∧
  ∀ (x y : Reg) (nn : Byte) (s : State),
    (∃ t, exec (.ldByte x nn) s = .next t ∧ t = { s with v := t.v, status := some .ok } ∧
      t.reg x = nn ∧ ∀ r, r ≠ x → t.reg r = s.reg r) ∧
    (∃ t, exec (.addByte x nn) s = .next t ∧ t = { s with v := t.v, status := some .ok } ∧
      (t.reg x).toNat = ((s.reg x).toNat + nn.toNat) % 256 ∧ ∀ r, r ≠ x → t.reg r = s.reg r) ∧
    (∃ t, exec (.ldReg x y) s = .next t ∧ t = { s with v := t.v, status := some .ok } ∧
      t.reg x = s.reg y ∧ ∀ r, r ≠ x → t.reg r = s.reg r)

/-- OR, AND and XOR work bit by bit on Vx and Vy into Vx, and touch no other register, VF among them
(R103, R104, R105). -/
def Obligations.LogicIsBitwiseAndLeavesVfAlone : Prop :=
  DecodesTo 0xF00F 0x8001 (fun w => .or (fieldX w) (fieldY w)) ∧
  DecodesTo 0xF00F 0x8002 (fun w => .and (fieldX w) (fieldY w)) ∧
  DecodesTo 0xF00F 0x8003 (fun w => .xor (fieldX w) (fieldY w)) ∧
  ∀ (x y : Reg) (s : State),
    (∃ t, exec (.or x y) s = .next t ∧ t = { s with v := t.v, status := some .ok } ∧
      (∀ k < 8, (t.reg x).getLsbD k = ((s.reg x).getLsbD k || (s.reg y).getLsbD k)) ∧
      ∀ r, r ≠ x → t.reg r = s.reg r) ∧
    (∃ t, exec (.and x y) s = .next t ∧ t = { s with v := t.v, status := some .ok } ∧
      (∀ k < 8, (t.reg x).getLsbD k = ((s.reg x).getLsbD k && (s.reg y).getLsbD k)) ∧
      ∀ r, r ≠ x → t.reg r = s.reg r) ∧
    (∃ t, exec (.xor x y) s = .next t ∧ t = { s with v := t.v, status := some .ok } ∧
      (∀ k < 8, (t.reg x).getLsbD k = Bool.xor ((s.reg x).getLsbD k) ((s.reg y).getLsbD k)) ∧
      ∀ r, r ≠ x → t.reg r = s.reg r)

/-- ADD Vx, Vy: Vx is the sum modulo 256 and VF the carry, from the values before; where Vx is VF
the sum stands (R106; the last is D7, log 12). -/
def Obligations.AddRegistersSumAndCarry : Prop :=
  DecodesTo 0xF00F 0x8004 (fun w => .addReg (fieldX w) (fieldY w)) ∧
  ∀ (x y : Reg) (s : State), ∃ t, exec (.addReg x y) s = .next t ∧
    t = { s with v := t.v, status := some .ok } ∧
    (t.reg x).toNat = ((s.reg x).toNat + (s.reg y).toNat) % 256 ∧
    (x ≠ vf → (t.reg vf).toNat = if (s.reg x).toNat + (s.reg y).toNat > 255 then 1 else 0) ∧
    ∀ r, r ≠ x → r ≠ vf → t.reg r = s.reg r

/-- SUB writes Vx - Vy to Vx, SUBN writes Vy - Vx to Vy, modulo 256, and VF is not-borrow, unsigned,
equality included; where the result register is VF the difference stands (R107, R109; the last is
D7, log 12). -/
def Obligations.SubtractionsDifferenceAndNotBorrow : Prop :=
  DecodesTo 0xF00F 0x8005 (fun w => .sub (fieldX w) (fieldY w)) ∧
  DecodesTo 0xF00F 0x8007 (fun w => .subn (fieldX w) (fieldY w)) ∧
  ∀ (x y : Reg) (s : State),
    (∃ t, exec (.sub x y) s = .next t ∧ t = { s with v := t.v, status := some .ok } ∧
      (t.reg x).toNat = ((s.reg x).toNat + 256 - (s.reg y).toNat) % 256 ∧
      (x ≠ vf → (t.reg vf).toNat = if (s.reg x).toNat ≥ (s.reg y).toNat then 1 else 0) ∧
      ∀ r, r ≠ x → r ≠ vf → t.reg r = s.reg r) ∧
    (∃ t, exec (.subn x y) s = .next t ∧ t = { s with v := t.v, status := some .ok } ∧
      (t.reg y).toNat = ((s.reg y).toNat + 256 - (s.reg x).toNat) % 256 ∧
      (y ≠ vf → (t.reg vf).toNat = if (s.reg y).toNat ≥ (s.reg x).toNat then 1 else 0) ∧
      ∀ r, r ≠ y → r ≠ vf → t.reg r = s.reg r)

/-- SHR and SHL shift Vx by one in place, Y ignored, and VF is the bit shifted out; where Vx is VF
the shifted value stands (R108, R110; the last is D7, log 12). -/
def Obligations.ShiftsMoveOneBitIntoVf : Prop :=
  DecodesTo 0xF00F 0x8006 (fun w => .shr (fieldX w)) ∧
  DecodesTo 0xF00F 0x800E (fun w => .shl (fieldX w)) ∧
  ∀ (x : Reg) (s : State),
    (∃ t, exec (.shr x) s = .next t ∧ t = { s with v := t.v, status := some .ok } ∧
      (t.reg x).toNat = (s.reg x).toNat / 2 ∧
      (x ≠ vf → (t.reg vf).toNat = (s.reg x).toNat % 2) ∧
      ∀ r, r ≠ x → r ≠ vf → t.reg r = s.reg r) ∧
    (∃ t, exec (.shl x) s = .next t ∧ t = { s with v := t.v, status := some .ok } ∧
      (t.reg x).toNat = (s.reg x).toNat * 2 % 256 ∧
      (x ≠ vf → (t.reg vf).toNat = if (s.reg x).toNat ≥ 128 then 1 else 0) ∧
      ∀ r, r ≠ x → r ≠ vf → t.reg r = s.reg r)

/-- RND writes a fresh free byte masked by NN, whatever that byte is; only Vx and the model's count
of drawn bytes change (R112; that it is free is D17, log 5). -/
def Obligations.RandomByteIsFreeAndMasked : Prop :=
  DecodesTo 0xF000 0xC000 (fun w => .rnd (fieldX w) (fieldNN w)) ∧
  ∀ (x : Reg) (nn : Byte) (s : State), ∃ t, exec (.rnd x nn) s = .next t ∧
    t = { s with v := t.v, rndCount := s.rndCount + 1, status := some .ok } ∧
    t.reg x = Config.rnd8 s.rndCount &&& nn ∧ t.reg x &&& ~~~nn = 0 ∧
    ∀ r, r ≠ x → t.reg r = s.reg r

/-! ### Index register and memory (42_index_memory.md) -/

/-- LD I sets I to NNN and ADD I adds Vx to I modulo 65536, without a flag; nothing else changes
(R120, R121). -/
def Obligations.IndexInstructionsWriteIOnly : Prop :=
  DecodesTo 0xF000 0xA000 (fun w => .ldI (fieldNNN w)) ∧
  DecodesTo 0xF0FF 0xF01E (fun w => .addI (fieldX w)) ∧
  ∀ (addr : BitVec 12) (x : Reg) (s : State),
    (∃ t, exec (.ldI addr) s = .next t ∧ t = { s with i := t.i, status := some .ok } ∧
      t.i.toNat = addr.toNat) ∧
    (∃ t, exec (.addI x) s = .next t ∧ t = { s with i := t.i, status := some .ok } ∧
      t.i.toNat = (s.i.toNat + (s.reg x).toNat) % 65536)

/-- LD F sets I to 0x50 + 5 Vx, which for a digit is the address of its glyph in reset memory, and
changes nothing else (R122; unmasked for Vx above 15 is D25, log 12). -/
def Obligations.GlyphAddressIsTheUnmaskedFormula : Prop :=
  DecodesTo 0xF0FF 0xF029 (fun w => .ldF (fieldX w)) ∧
  ∀ (x : Reg) (s : State), ∃ t, exec (.ldF x) s = .next t ∧
    t = { s with i := t.i, status := some .ok } ∧
    t.i.toNat = 0x0050 + 5 * (s.reg x).toNat ∧
    ((s.reg x).toNat ≤ 15 → ∀ k < 5,
      State.reset.mem.read (t.i.toNat + k) = glyphTable.getD (5 * (s.reg x).toNat + k) 0)

/-- LD B stores hundreds, tens and ones at I, I + 1, I + 2 and no other byte; with I above 0x0FFD it
is a BoundsFault and stores nothing (R123; the BoundsFault is D5, log 12; that the index
reported lies above 0x0FFF and within the access is the model's choice, log 3). -/
def Obligations.BcdStoresThreeDigits : Prop :=
  DecodesTo 0xF0FF 0xF033 (fun w => .ldB (fieldX w)) ∧
  ∀ (x : Reg) (s : State), s.mem.wf = true →
    (s.i.toNat ≤ 0x0FFD → ∃ t, exec (.ldB x) s = .next t ∧
      t = { s with mem := t.mem, status := some .ok } ∧
      (t.mem.read s.i.toNat).toNat = (s.reg x).toNat / 100 ∧
      (t.mem.read (s.i.toNat + 1)).toNat = (s.reg x).toNat / 10 % 10 ∧
      (t.mem.read (s.i.toNat + 2)).toNat = (s.reg x).toNat % 10 ∧
      ∀ a, a < s.i.toNat ∨ s.i.toNat + 3 ≤ a → t.mem.read a = s.mem.read a) ∧
    (s.i.toNat > 0x0FFD → ∃ index, exec (.ldB x) s =
        .next { s with status := some (.boundsFault .data index (s.pc - 2)) } ∧
      0x0FFF < index ∧ s.i.toNat ≤ index ∧ index ≤ s.i.toNat + 2)

/-- LD [I], Vx stores V0 to Vx at I to I + x, I unchanged, and no other byte; reaching above 0x0FFF
it is a BoundsFault and stores nothing (R124; the BoundsFault is D5, log 12; that the index
reported lies above 0x0FFF and within the access is the model's choice, log 3). -/
def Obligations.StoreRegistersWritesTheBlock : Prop :=
  DecodesTo 0xF0FF 0xF055 (fun w => .storeRegs (fieldX w)) ∧
  ∀ (x : Reg) (s : State), s.mem.wf = true →
    (s.i.toNat + x.val ≤ 0x0FFF → ∃ t, exec (.storeRegs x) s = .next t ∧
      t = { s with mem := t.mem, status := some .ok } ∧
      (∀ r : Reg, r ≤ x → t.mem.read (s.i.toNat + r.val) = s.reg r) ∧
      ∀ a, a < s.i.toNat ∨ s.i.toNat + x.val < a → t.mem.read a = s.mem.read a) ∧
    (s.i.toNat + x.val > 0x0FFF → ∃ index, exec (.storeRegs x) s =
        .next { s with status := some (.boundsFault .data index (s.pc - 2)) } ∧
      0x0FFF < index ∧ s.i.toNat ≤ index ∧ index ≤ s.i.toNat + x.val)

/-- LD Vx, [I] loads V0 to Vx from I to I + x, I and the registers above Vx unchanged; reaching above
0x0FFF it is a BoundsFault and loads nothing (R125; the BoundsFault is D5, log 12; that the index
reported lies above 0x0FFF and within the access is the model's choice, log 3). -/
def Obligations.LoadRegistersReadsTheBlock : Prop :=
  DecodesTo 0xF0FF 0xF065 (fun w => .loadRegs (fieldX w)) ∧
  ∀ (x : Reg) (s : State),
    (s.i.toNat + x.val ≤ 0x0FFF → ∃ t, exec (.loadRegs x) s = .next t ∧
      t = { s with v := t.v, status := some .ok } ∧
      (∀ r : Reg, r ≤ x → t.reg r = s.mem.read (s.i.toNat + r.val)) ∧
      ∀ r : Reg, x < r → t.reg r = s.reg r) ∧
    (s.i.toNat + x.val > 0x0FFF → ∃ index, exec (.loadRegs x) s =
        .next { s with status := some (.boundsFault .data index (s.pc - 2)) } ∧
      0x0FFF < index ∧ s.i.toNat ≤ index ∧ index ≤ s.i.toNat + x.val)

/-- Storing V0 to Vx and loading them again at the same I gives every register back
(42_index_memory.md R124, R125). -/
def Obligations.StoredRegistersLoadBack : Prop :=
  ∀ (x : Reg) (s t u : State), s.mem.wf = true → s.i.toNat + x.val ≤ 0x0FFF →
    exec (.storeRegs x) s = .next t → u.mem = t.mem → u.i = s.i →
    (∀ r : Reg, x < r → u.reg r = s.reg r) →
    ∃ w, exec (.loadRegs x) u = .next w ∧ w.status = some .ok ∧ ∀ r, w.reg r = s.reg r

/-- A stored word is what the very next fetch reads there: no instruction buffer stands between
(20_memory.md R54). -/
def Obligations.StoreIsSeenByTheNextFetch : Prop :=
  ∀ (x : Reg) (s t : State), s.mem.wf = true → 1 ≤ x.val → s.i.toNat + x.val ≤ 0x0FFF →
    exec (.storeRegs x) s = .next t → ∀ k : Nat, k + 1 ≤ x.val →
      ∀ pc : Word, pc.toNat = s.i.toNat + k →
        fetchWord { t with pc := pc } =
          some (joinBytes (s.reg (Fin.ofNat 16 k)) (s.reg (Fin.ofNat 16 (k + 1))))

/-! ### Display (43_display.md) -/

/-- CLS zeroes every pixel and sets DRAW; nothing else changes (R140). -/
def Obligations.ClsZeroesEveryPixel : Prop :=
  DecodesTo 0xFFFF 0x00E0 (fun _ => .cls) ∧
  ∀ s : State, ∃ t, exec .cls s = .next t ∧
    t = { s with fb := t.fb, draw := true, status := some .ok } ∧
    ∀ p, fbRead p t = false

/-- DRW toggles exactly the pixels the sprite covers, both axes wrapping, sets VF to whether a
covered pixel was set, and sets DRAW; reaching above 0x0FFF it is a BoundsFault and changes nothing
(R141; the BoundsFault is D5, log 12; that the index
reported lies above 0x0FFF and within the access is the model's choice, log 3). -/
def Obligations.DrawTogglesTheCoveredPixels : Prop :=
  DecodesTo 0xF000 0xD000 (fun w => .drw (fieldX w) (fieldY w) (fieldN w).toFin) ∧
  ∀ (x y : Reg) (n : Fin 16) (s : State),
    (n.val = 0 ∨ s.i.toNat + n.val - 1 ≤ 0x0FFF → ∃ t, exec (.drw x y n) s = .next t ∧
      t = { s with v := t.v, fb := t.fb, draw := true, status := some .ok } ∧
      (∀ px py, spriteCovers s x y n.val px py → t.fb.pixel px py = !s.fb.pixel px py) ∧
      (∀ px py, ¬ spriteCovers s x y n.val px py → t.fb.pixel px py = s.fb.pixel px py) ∧
      (t.reg vf = 1 ↔ ∃ px py, spriteCovers s x y n.val px py ∧ s.fb.pixel px py = true) ∧
      (t.reg vf = 0 ∨ t.reg vf = 1) ∧ ∀ r, r ≠ vf → t.reg r = s.reg r) ∧
    (n.val ≥ 1 ∧ s.i.toNat + n.val - 1 > 0x0FFF → ∃ index, exec (.drw x y n) s =
        .next { s with status := some (.boundsFault .data index (s.pc - 2)) } ∧
      0x0FFF < index ∧ s.i.toNat ≤ index ∧ index ≤ s.i.toNat + n.val - 1)

/-- Drawing the same sprite twice at the same place restores the framebuffer; the second draw
reports VF = 1 exactly when a covered pixel was 0 before the first, so over a blank area exactly when
the sprite has a set bit (43_display.md R142, whose remark on VF leaves the blank area unsaid:
log 14). -/
def Obligations.DrawingTwiceRestoresTheFramebuffer : Prop :=
  ∀ (x y : Reg) (n : Fin 16) (s t u : State), x ≠ vf → y ≠ vf →
    (n.val = 0 ∨ s.i.toNat + n.val - 1 ≤ 0x0FFF) →
    exec (.drw x y n) s = .next t → exec (.drw x y n) t = .next u →
    u.fb = s.fb ∧
    (u.reg vf = 1 ↔ ∃ px py, spriteCovers s x y n.val px py ∧ s.fb.pixel px py = false) ∧
    ((∀ px py, spriteCovers s x y n.val px py → s.fb.pixel px py = false) →
      (u.reg vf = 1 ↔ ∃ r < n.val, ∃ c < 8, spriteBit s r c))

/-! ### Keypad and timers (44_keypad_timers.md) -/

/-- SKP and SKNP skip by 2 on the level of key Vx; above 15 they are a BoundsFault
(R150, R151; the BoundsFault is D6, log 12). -/
def Obligations.KeySkipsTestTheSampledLevel : Prop :=
  DecodesTo 0xF0FF 0xE09E (fun w => .skp (fieldX w)) ∧
  DecodesTo 0xF0FF 0xE0A1 (fun w => .sknp (fieldX w)) ∧
  ∀ (x : Reg) (s : State),
    (∀ k : Fin 16, (s.reg x).toNat = k.val →
      exec (.skp x) s =
        .next { s with pc := if s.key[k] = true then s.pc + 2 else s.pc, status := some .ok } ∧
      exec (.sknp x) s =
        .next { s with pc := if s.key[k] = true then s.pc else s.pc + 2, status := some .ok }) ∧
    ((s.reg x).toNat > 15 →
      exec (.skp x) s =
        .next { s with status := some (.boundsFault .key (s.reg x).toNat (s.pc - 2)) } ∧
      exec (.sknp x) s =
        .next { s with status := some (.boundsFault .key (s.reg x).toNat (s.pc - 2)) })

/-- LD Vx, K with no key pressed goes back to its own address and writes nothing; else Vx is the
least pressed key; OK in both cases (R153). -/
def Obligations.KeyWaitRepeatsOrTakesTheLeastKey : Prop :=
  DecodesTo 0xF0FF 0xF00A (fun w => .ldVxK (fieldX w)) ∧
  ∀ (x : Reg) (s : State),
    ((∀ k : Fin 16, s.key[k] = false) →
      exec (.ldVxK x) s = .next { s with pc := s.pc - 2, status := some .ok }) ∧
    (∀ k : Fin 16, s.key[k] = true → (∀ j : Fin 16, j < k → s.key[j] = false) →
      ∃ t, exec (.ldVxK x) s = .next t ∧ t = { s with v := t.v, status := some .ok } ∧
        (t.reg x).toNat = k.val ∧ ∀ r, r ≠ x → t.reg r = s.reg r)

/-- LD Vx, DT reads the delay timer; LD DT, Vx and LD ST, Vx set a timer; nothing else changes, and
after the step's timer pass the timer stands one lower (R152, R154, R155). -/
def Obligations.TimerInstructionsMoveOneByte : Prop :=
  DecodesTo 0xF0FF 0xF007 (fun w => .ldVxDt (fieldX w)) ∧
  DecodesTo 0xF0FF 0xF015 (fun w => .ldDtVx (fieldX w)) ∧
  DecodesTo 0xF0FF 0xF018 (fun w => .ldStVx (fieldX w)) ∧
  (∀ (x : Reg) (s : State),
    (∃ t, exec (.ldVxDt x) s = .next t ∧ t = { s with v := t.v, status := some .ok } ∧
      t.reg x = s.dt ∧ ∀ r, r ≠ x → t.reg r = s.reg r) ∧
    (∃ t, exec (.ldDtVx x) s = .next t ∧ t = { s with dt := s.reg x, status := some .ok }) ∧
    (∃ t, exec (.ldStVx x) s = .next t ∧ t = { s with st := s.reg x, status := some .ok })) ∧
  (∀ (x : Reg) (s t : State), step s = .next t →
    (nextInstr s = some (.ldVxDt x) → t.reg x = s.dt ∧ t.dt.toNat = s.dt.toNat - 1) ∧
    (nextInstr s = some (.ldDtVx x) → t.dt.toNat = (s.reg x).toNat - 1) ∧
    (nextInstr s = some (.ldStVx x) → t.st.toNat = (s.reg x).toNat - 1 ∧
      (snd t = true ↔ (s.reg x).toNat > 1)))
end

