-- ==== Sys2Proof/Laws/Decode.lean ====
section
/-! SUPPORT. The fields of a word as numbers, the words the encoder lays out as numbers, and what a
word that matches a row of the opcode table has in its fields. -/

namespace Sys2Proof

/-! ### Fields as numbers (30_encoding.md R61) -/

theorem fieldC_toNat (w : Word) : (fieldC w).toNat = w.toNat / 4096 := by
  have := w.isLt
  simp [fieldC, BitVec.extractLsb'_toNat, Nat.shiftRight_eq_div_pow]
  omega

theorem fieldX_val (w : Word) : (fieldX w).val = w.toNat / 256 % 16 := by
  simp [fieldX, Nat.shiftRight_eq_div_pow]

theorem fieldY_val (w : Word) : (fieldY w).val = w.toNat / 16 % 16 := by
  simp [fieldY, Nat.shiftRight_eq_div_pow]

theorem fieldN_toNat (w : Word) : (fieldN w).toNat = w.toNat % 16 := by
  simp [fieldN, BitVec.extractLsb'_toNat]

theorem fieldNN_toNat (w : Word) : (fieldNN w).toNat = w.toNat % 256 := by
  simp [fieldNN, BitVec.extractLsb'_toNat]

theorem fieldNNN_toNat (w : Word) : (fieldNNN w).toNat = w.toNat % 4096 := by
  simp [fieldNNN, BitVec.extractLsb'_toNat]

/-! ### Concatenation and byte order (20_memory.md R42) -/

theorem append_toNat {m n : Nat} (a : BitVec m) (b : BitVec n) :
    (a ++ b).toNat = a.toNat * 2 ^ n + b.toNat := by
  rw [BitVec.toNat_append, ← Nat.shiftLeft_add_eq_or_of_lt b.isLt, Nat.shiftLeft_eq]

theorem joinBytes_toNat (hi lo : Byte) : (joinBytes hi lo).toNat = hi.toNat * 256 + lo.toNat :=
  append_toNat hi lo

@[simp] theorem joinBytes_hiByte_loByte (w : Word) : joinBytes (hiByte w) (loByte w) = w := by
  apply BitVec.eq_of_toNat_eq
  rw [joinBytes_toNat]
  have := w.isLt
  simp [hiByte, loByte, BitVec.extractLsb'_toNat, Nat.shiftRight_eq_div_pow]
  omega

/-! ### The words the encoder lays out, as numbers (30_encoding.md R62) -/

theorem wordNNN_toNat (c : BitVec 4) (a : BitVec 12) :
    (wordNNN c a).toNat = c.toNat * 4096 + a.toNat :=
  append_toNat c a

@[simp] theorem regBits_toNat (x : Reg) : (regBits x).toNat = x.val := rfl

theorem wordXNN_toNat (c : BitVec 4) (x : Reg) (nn : Byte) :
    (wordXNN c x nn).toNat = c.toNat * 4096 + x.val * 256 + nn.toNat := by
  have h1 := append_toNat c (regBits x)
  have h2 := append_toNat (c ++ regBits x) nn
  rw [regBits_toNat] at h1
  refine h2.trans ?_
  omega

theorem wordXYN_toNat (c : BitVec 4) (x y : Reg) (n : BitVec 4) :
    (wordXYN c x y n).toNat = c.toNat * 4096 + x.val * 256 + y.val * 16 + n.toNat := by
  have h1 := append_toNat c (regBits x)
  have h2 := append_toNat (c ++ regBits x) (regBits y)
  have h3 := append_toNat (c ++ regBits x ++ regBits y) n
  rw [regBits_toNat] at h1 h2
  refine h3.trans ?_
  omega

/-! ### The fields of those words -/

theorem fieldC_eq {w : Word} {c : BitVec 4} {r : Nat} (hr : r < 4096)
    (h : w.toNat = c.toNat * 4096 + r) : fieldC w = c := by
  apply BitVec.eq_of_toNat_eq
  rw [fieldC_toNat, h]
  omega

theorem fieldX_eq {w : Word} {c r : Nat} {x : Reg} (hr : r < 256)
    (h : w.toNat = c * 4096 + x.val * 256 + r) : fieldX w = x := by
  apply Fin.ext
  rw [fieldX_val, h]
  omega

theorem fieldNN_eq {w : Word} {r : Nat} {nn : Byte} (h : w.toNat = r * 256 + nn.toNat) :
    fieldNN w = nn := by
  apply BitVec.eq_of_toNat_eq
  rw [fieldNN_toNat, h]
  omega

@[simp] theorem fieldC_wordNNN (c : BitVec 4) (a : BitVec 12) : fieldC (wordNNN c a) = c :=
  fieldC_eq a.isLt (wordNNN_toNat c a)

@[simp] theorem fieldNNN_wordNNN (c : BitVec 4) (a : BitVec 12) : fieldNNN (wordNNN c a) = a := by
  apply BitVec.eq_of_toNat_eq
  rw [fieldNNN_toNat, wordNNN_toNat]
  omega

@[simp] theorem fieldC_wordXNN (c : BitVec 4) (x : Reg) (nn : Byte) :
    fieldC (wordXNN c x nn) = c :=
  fieldC_eq (r := x.val * 256 + nn.toNat) (by omega)
    ((wordXNN_toNat c x nn).trans (Nat.add_assoc _ _ _))

@[simp] theorem fieldX_wordXNN (c : BitVec 4) (x : Reg) (nn : Byte) :
    fieldX (wordXNN c x nn) = x :=
  fieldX_eq nn.isLt (wordXNN_toNat c x nn)

@[simp] theorem fieldNN_wordXNN (c : BitVec 4) (x : Reg) (nn : Byte) :
    fieldNN (wordXNN c x nn) = nn :=
  fieldNN_eq (r := c.toNat * 16 + x.val) ((wordXNN_toNat c x nn).trans (by omega))

@[simp] theorem fieldC_wordXYN (c : BitVec 4) (x y : Reg) (n : BitVec 4) :
    fieldC (wordXYN c x y n) = c :=
  fieldC_eq (r := x.val * 256 + y.val * 16 + n.toNat) (by omega)
    ((wordXYN_toNat c x y n).trans (by omega))

@[simp] theorem fieldX_wordXYN (c : BitVec 4) (x y : Reg) (n : BitVec 4) :
    fieldX (wordXYN c x y n) = x :=
  fieldX_eq (r := y.val * 16 + n.toNat) (by omega) ((wordXYN_toNat c x y n).trans (Nat.add_assoc _ _ _))

@[simp] theorem fieldY_wordXYN (c : BitVec 4) (x y : Reg) (n : BitVec 4) :
    fieldY (wordXYN c x y n) = y := by
  apply Fin.ext
  rw [fieldY_val, wordXYN_toNat]
  omega

@[simp] theorem fieldN_wordXYN (c : BitVec 4) (x y : Reg) (n : BitVec 4) :
    fieldN (wordXYN c x y n) = n := by
  apply BitVec.eq_of_toNat_eq
  rw [fieldN_toNat, wordXYN_toNat]
  omega

/-! ### The three masks of the opcode table (30_encoding.md R73) -/

theorem and_F000_toNat (w : Word) : (w &&& 0xF000#16).toNat = w.toNat / 4096 * 4096 := by
  have hw := w.isLt
  have e : w &&& 0xF000#16 = (w >>> 12) <<< 12 := by
    ext i hi
    interval_cases i <;> simp
  rw [e]
  simp [Nat.shiftRight_eq_div_pow, Nat.shiftLeft_eq]
  omega

/-- The high nibble kept, and `k` low bits of `v` below it. -/
theorem highNibble_or_toNat (w v : Word) (k : Nat) (hk : k ≤ 12) (hv : v.toNat < 2 ^ k) :
    (w &&& 0xF000#16 ||| v).toNat = w.toNat / 4096 * 4096 + v.toNat := by
  have h12 : v.toNat < 2 ^ 12 := Nat.lt_of_lt_of_le hv (Nat.pow_le_pow_right (by decide) hk)
  rw [BitVec.toNat_or, and_F000_toNat]
  have := Nat.shiftLeft_add_eq_or_of_lt h12 (w.toNat / 4096)
  rw [Nat.shiftLeft_eq] at this
  simpa using this.symm

theorem and_F00F_toNat (w : Word) :
    (w &&& 0xF00F#16).toNat = w.toNat / 4096 * 4096 + w.toNat % 16 := by
  have e : w &&& 0xF00F#16 = w &&& 0xF000#16 ||| w &&& 0x000F#16 := by
    rw [← BitVec.and_or_distrib_left]; rfl
  have hv : (w &&& 0x000F#16).toNat = w.toNat % 16 := by
    simpa using Nat.and_two_pow_sub_one_eq_mod w.toNat 4
  rw [e, highNibble_or_toNat w _ 4 (by decide) (by rw [hv]; omega), hv]

theorem and_F0FF_toNat (w : Word) :
    (w &&& 0xF0FF#16).toNat = w.toNat / 4096 * 4096 + w.toNat % 256 := by
  have e : w &&& 0xF0FF#16 = w &&& 0xF000#16 ||| w &&& 0x00FF#16 := by
    rw [← BitVec.and_or_distrib_left]; rfl
  have hv : (w &&& 0x00FF#16).toNat = w.toNat % 256 := by
    simpa using Nat.and_two_pow_sub_one_eq_mod w.toNat 8
  rw [e, highNibble_or_toNat w _ 8 (by decide) (by rw [hv]; omega), hv]

/-- A word of a row that fixes C alone. -/
theorem fieldC_of_and_F000 {w : Word} {c : Nat} (hc : c < 16)
    (h : w &&& 0xF000#16 = BitVec.ofNat 16 (c * 4096)) : (fieldC w).toNat = c := by
  have := congrArg BitVec.toNat h
  rw [and_F000_toNat] at this
  simp at this
  rw [fieldC_toNat]
  omega

/-- A word of a row of group 8. -/
theorem fields_of_and_F00F {w : Word} {n : Nat} (hn : n < 16)
    (h : w &&& 0xF00F#16 = BitVec.ofNat 16 (0x8000 + n)) :
    (fieldC w).toNat = 8 ∧ (fieldN w).toNat = n := by
  have := congrArg BitVec.toNat h
  rw [and_F00F_toNat] at this
  simp at this
  rw [fieldC_toNat, fieldN_toNat]
  omega

/-- A word of a row of group E or F. -/
theorem fields_of_and_F0FF {w : Word} {c : Nat} {nn : Byte} (hc : c < 16)
    (h : w &&& 0xF0FF#16 = BitVec.ofNat 16 (c * 4096 + nn.toNat)) :
    (fieldC w).toNat = c ∧ fieldNN w = nn := by
  have hb := nn.isLt
  have := congrArg BitVec.toNat h
  rw [and_F0FF_toNat] at this
  simp at this
  rw [fieldC_toNat]
  refine ⟨by omega, BitVec.eq_of_toNat_eq ?_⟩
  rw [fieldNN_toNat]
  omega

end Sys2Proof
end

