-- ==== Sys2Proof/Laws/Memory.lean ====
section
/-! SUPPORT. Memory: a read after a write, the canonical form and that every memory operation keeps
it, and that canonical memories which read alike are equal. -/

namespace Sys2Proof.Machine

/-! ### Read after write -/

theorem Memory.read_cell_append (m : Memory) (a : Nat) (b : Byte) (c : Nat) :
    Memory.read (Memory.cell a b ++ m) c =
      if c = a then (if b = Memory.unlisted a then Memory.read m a else b) else Memory.read m c := by
  unfold Memory.cell
  split
  · by_cases h : c = a <;> simp_all
  · simp [Memory.read]

/-- In a canonical memory, an address below the first cell reads as unlisted. -/
theorem Memory.read_of_lt {lo : Nat} {m : Memory} (h : Memory.wfFrom lo m = true) {a : Nat}
    (ha : a < lo) : Memory.read m a = Memory.unlisted a := by
  induction m generalizing lo with
  | nil => rfl
  | cons c m ih =>
    obtain ⟨k, b⟩ := c
    simp [Memory.wfFrom] at h
    obtain ⟨⟨⟨hk, -⟩, -⟩, hm⟩ := h
    rw [Memory.read, if_neg (by omega)]
    exact ih hm (by omega)

/-- The canonical form from `lo` holds from any lower address. -/
theorem Memory.wfFrom_mono {lo lo' : Nat} {m : Memory} (h : Memory.wfFrom lo m = true)
    (hl : lo' ≤ lo) : Memory.wfFrom lo' m = true := by
  cases m with
  | nil => rfl
  | cons c m =>
    obtain ⟨k, b⟩ := c
    simp [Memory.wfFrom] at h ⊢
    exact ⟨⟨⟨by omega, h.1.1.2⟩, h.1.2⟩, h.2⟩

/-- Reading any address after a write, in a canonical memory (20_memory.md R51). -/
theorem Memory.read_write_of_wfFrom {lo : Nat} {m : Memory} (h : Memory.wfFrom lo m = true)
    (a c : Nat) (b : Byte) :
    Memory.read (Memory.write m a b) c = if c = a then b else Memory.read m c := by
  induction m generalizing lo with
  | nil =>
    have := Memory.read_cell_append [] a b c
    simp only [List.append_nil] at this
    rw [Memory.write, this]
    by_cases hc : c = a <;> simp [hc, Memory.read]
    intro hb; exact hb.symm
  | cons p m ih =>
    obtain ⟨k, d⟩ := p
    have h' := h
    simp [Memory.wfFrom] at h
    obtain ⟨-, hm⟩ := h
    have tail_read : ∀ e, e ≤ k → Memory.read m e = Memory.unlisted e := fun e he =>
      Memory.read_of_lt hm (by omega)
    rw [Memory.write]
    split
    · next hak =>
      rw [Memory.read_cell_append]
      by_cases hc : c = a <;> simp [hc]
      intro hb
      rw [Memory.read, if_neg (by omega), tail_read a (by omega), hb]
    · split
      · next hak =>
        subst hak
        rw [Memory.read_cell_append]
        by_cases hc : c = a
        · simp only [hc, if_true]
          split
          · next hb => rw [tail_read a (by omega), hb]
          · rfl
        · simp [hc, Memory.read]
      · next h1 h2 =>
        simp only [Memory.read]
        rw [ih hm]
        by_cases hck : c = k
        · have : c ≠ a := by omega
          simp [hck]
          omega
        · simp [hck]

/-- Reading any address after a write (R51). -/
theorem Memory.read_write {m : Memory} (h : m.wf = true) (a c : Nat) (b : Byte) :
    (m.write a b).read c = if c = a then b else m.read c :=
  Memory.read_write_of_wfFrom h a c b

/-! ### The canonical form is kept -/

theorem Memory.wfFrom_cell_append {lo a : Nat} {b : Byte} {m : Memory} (hlo : lo ≤ a)
    (ha : a < 4096) (h : Memory.wfFrom (a + 1) m = true) :
    Memory.wfFrom lo (Memory.cell a b ++ m) = true := by
  unfold Memory.cell
  split
  · exact Memory.wfFrom_mono h (by omega)
  · next hb => simp [Memory.wfFrom, hlo, ha, hb, h]

theorem Memory.wfFrom_write {lo : Nat} {m : Memory} (h : Memory.wfFrom lo m = true) {a : Nat}
    (hlo : lo ≤ a) (ha : a < 4096) (b : Byte) : Memory.wfFrom lo (Memory.write m a b) = true := by
  induction m generalizing lo with
  | nil =>
    have := Memory.wfFrom_cell_append (b := b) (m := []) hlo ha rfl
    simpa [Memory.write] using this
  | cons p m ih =>
    obtain ⟨k, d⟩ := p
    have h' := h
    simp [Memory.wfFrom] at h
    obtain ⟨⟨⟨hk, hk'⟩, hd⟩, hm⟩ := h
    rw [Memory.write]
    split
    · next hak =>
      refine Memory.wfFrom_cell_append hlo ha ?_
      simp [Memory.wfFrom, hk', hd, hm]
      omega
    · split
      · next hak =>
        subst hak
        exact Memory.wfFrom_cell_append hlo ha hm
      · simp [Memory.wfFrom, hk, hk', hd]
        exact ih hm (by omega)

theorem Memory.wf_write {m : Memory} (h : m.wf = true) {a : Nat} (ha : a < 4096) (b : Byte) :
    (m.write a b).wf = true :=
  Memory.wfFrom_write h (Nat.zero_le a) ha b

theorem Memory.wf_writeBytes {m : Memory} (h : m.wf = true) {a : Nat} {bs : List Byte}
    (ha : a + bs.length ≤ 4096) : (m.writeBytes a bs).wf = true := by
  induction bs generalizing m a with
  | nil => exact h
  | cons b bs ih =>
    simp only [List.length_cons] at ha
    exact ih (Memory.wf_write h (by omega) b) (by omega)

/-- Reset memory is canonical. -/
theorem Memory.wf_nil : Memory.wf [] = true := rfl

/-- Reading any address after a run of bytes is stored (20_memory.md R43, R51). -/
theorem Memory.read_writeBytes {m : Memory} (h : m.wf = true) {a : Nat} {bs : List Byte}
    (ha : a + bs.length ≤ 4096) (c : Nat) :
    (m.writeBytes a bs).read c =
      if a ≤ c ∧ c < a + bs.length then bs.getD (c - a) 0 else m.read c := by
  induction bs generalizing m a with
  | nil =>
    have : ¬ (a ≤ c ∧ c < a + ([] : List Byte).length) := by simp
    rw [if_neg this]; rfl
  | cons b bs ih =>
    simp only [List.length_cons] at ha
    rw [Memory.writeBytes, ih (Memory.wf_write h (by omega) b) (by omega), Memory.read_write h]
    simp only [List.length_cons]
    by_cases hca : c = a
    · subst hca
      rw [if_neg (by omega), if_pos rfl, if_pos (by omega)]
      simp
    · by_cases hin : a + 1 ≤ c ∧ c < a + 1 + bs.length
      · rw [if_pos hin, if_pos (by omega)]
        obtain ⟨k, rfl⟩ : ∃ k, c = a + 1 + k := ⟨c - (a + 1), by omega⟩
        have : a + 1 + k - a = k + 1 := by omega
        simp [this]
      · rw [if_neg hin, if_neg hca, if_neg (by omega)]

/-! ### Equal reads, equal memories -/

theorem Memory.ext_of_wfFrom {lo : Nat} {m m' : Memory} (h : Memory.wfFrom lo m = true)
    (h' : Memory.wfFrom lo m' = true) (hr : ∀ a, lo ≤ a → Memory.read m a = Memory.read m' a) :
    m = m' := by
  induction m generalizing lo m' with
  | nil =>
    cases m' with
    | nil => rfl
    | cons p m' =>
      obtain ⟨k, d⟩ := p
      simp [Memory.wfFrom] at h'
      have := hr k h'.1.1.1
      simp [Memory.read] at this
      exact absurd this.symm h'.1.2
  | cons p m ih =>
    obtain ⟨k, d⟩ := p
    have hw := h
    simp [Memory.wfFrom] at h
    obtain ⟨⟨⟨hk, hk4⟩, hd⟩, hm⟩ := h
    cases m' with
    | nil =>
      have := hr k hk
      simp [Memory.read] at this
      exact absurd this hd
    | cons p' m' =>
      obtain ⟨k', d'⟩ := p'
      have hw' := h'
      simp [Memory.wfFrom] at h'
      obtain ⟨⟨⟨hk', hk4'⟩, hd'⟩, hm'⟩ := h'
      have low : ∀ e, e ≤ k → Memory.read m e = Memory.unlisted e := fun e he =>
        Memory.read_of_lt hm (by omega)
      have low' : ∀ e, e ≤ k' → Memory.read m' e = Memory.unlisted e := fun e he =>
        Memory.read_of_lt hm' (by omega)
      have hkk : k = k' := by
        rcases Nat.lt_trichotomy k k' with hlt | heq | hgt
        · have := hr k hk
          rw [Memory.read, if_pos rfl, Memory.read, if_neg (by omega), low' k (by omega)] at this
          exact absurd this hd
        · exact heq
        · have := hr k' hk'
          rw [Memory.read, if_neg (by omega), low k' (by omega), Memory.read, if_pos rfl] at this
          exact absurd this.symm hd'
      subst hkk
      have hdd : d = d' := by simpa [Memory.read] using hr k hk
      subst hdd
      congr 1
      refine ih hm hm' fun a ha => ?_
      have := hr a (by omega)
      rwa [Memory.read, if_neg (by omega), Memory.read, if_neg (by omega)] at this

/-- Two canonical memories that read alike at every address are the same list. -/
theorem Memory.ext {m m' : Memory} (h : m.wf = true) (h' : m'.wf = true)
    (hr : ∀ a, m.read a = m'.read a) : m = m' :=
  Memory.ext_of_wfFrom h h' fun a _ => hr a

/-! ### Runs of bytes and the range check -/

@[simp] theorem Memory.length_readBytes (m : Memory) (a n : Nat) : (m.readBytes a n).length = n := by
  simp [Memory.readBytes]

theorem Memory.getD_readBytes (m : Memory) {a n k : Nat} (hk : k < n) :
    (m.readBytes a n).getD k 0 = m.read (a + k) := by
  simp [Memory.readBytes, hk]

theorem inMemory_iff (base count : Nat) :
    inMemory base count = true ↔ count = 0 ∨ base + count ≤ 4096 := by
  simp [inMemory]

end Sys2Proof.Machine
end

