-- ==== Sys2Proof/Laws/State.lean ====
section
/-! SUPPORT. One lemma per field per update of State, each by `rfl`, so that no proof unfolds a
record update; and the general registers read after a write. -/

namespace Sys2Proof.Machine

variable (s : State)

/-! ### report -/

@[simp] theorem State.report_v (r : Status) : (s.report r).v = s.v := rfl
@[simp] theorem State.report_pc (r : Status) : (s.report r).pc = s.pc := rfl
@[simp] theorem State.report_i (r : Status) : (s.report r).i = s.i := rfl
@[simp] theorem State.report_stack (r : Status) : (s.report r).stack = s.stack := rfl
@[simp] theorem State.report_sp (r : Status) : (s.report r).sp = s.sp := rfl
@[simp] theorem State.report_dt (r : Status) : (s.report r).dt = s.dt := rfl
@[simp] theorem State.report_st (r : Status) : (s.report r).st = s.st := rfl
@[simp] theorem State.report_mem (r : Status) : (s.report r).mem = s.mem := rfl
@[simp] theorem State.report_fb (r : Status) : (s.report r).fb = s.fb := rfl
@[simp] theorem State.report_draw (r : Status) : (s.report r).draw = s.draw := rfl
@[simp] theorem State.report_key (r : Status) : (s.report r).key = s.key := rfl
@[simp] theorem State.report_status (r : Status) : (s.report r).status = some r := rfl
@[simp] theorem State.report_rndCount (r : Status) : (s.report r).rndCount = s.rndCount := rfl

/-! ### jump -/

@[simp] theorem State.jump_v (t : Word) : (s.jump t).v = s.v := rfl
@[simp] theorem State.jump_pc (t : Word) : (s.jump t).pc = t := rfl
@[simp] theorem State.jump_i (t : Word) : (s.jump t).i = s.i := rfl
@[simp] theorem State.jump_stack (t : Word) : (s.jump t).stack = s.stack := rfl
@[simp] theorem State.jump_sp (t : Word) : (s.jump t).sp = s.sp := rfl
@[simp] theorem State.jump_dt (t : Word) : (s.jump t).dt = s.dt := rfl
@[simp] theorem State.jump_st (t : Word) : (s.jump t).st = s.st := rfl
@[simp] theorem State.jump_mem (t : Word) : (s.jump t).mem = s.mem := rfl
@[simp] theorem State.jump_fb (t : Word) : (s.jump t).fb = s.fb := rfl
@[simp] theorem State.jump_draw (t : Word) : (s.jump t).draw = s.draw := rfl
@[simp] theorem State.jump_key (t : Word) : (s.jump t).key = s.key := rfl
@[simp] theorem State.jump_status (t : Word) : (s.jump t).status = s.status := rfl
@[simp] theorem State.jump_rndCount (t : Word) : (s.jump t).rndCount = s.rndCount := rfl

/-! ### advance -/

@[simp] theorem State.advance_v : (s.advance).v = s.v := rfl
@[simp] theorem State.advance_pc : (s.advance).pc = s.pc + 2 := rfl
@[simp] theorem State.advance_i : (s.advance).i = s.i := rfl
@[simp] theorem State.advance_stack : (s.advance).stack = s.stack := rfl
@[simp] theorem State.advance_sp : (s.advance).sp = s.sp := rfl
@[simp] theorem State.advance_dt : (s.advance).dt = s.dt := rfl
@[simp] theorem State.advance_st : (s.advance).st = s.st := rfl
@[simp] theorem State.advance_mem : (s.advance).mem = s.mem := rfl
@[simp] theorem State.advance_fb : (s.advance).fb = s.fb := rfl
@[simp] theorem State.advance_draw : (s.advance).draw = s.draw := rfl
@[simp] theorem State.advance_key : (s.advance).key = s.key := rfl
@[simp] theorem State.advance_status : (s.advance).status = s.status := rfl
@[simp] theorem State.advance_rndCount : (s.advance).rndCount = s.rndCount := rfl

/-! ### setReg -/

@[simp] theorem State.setReg_v (x : Reg) (b : Byte) : (s.setReg x b).v = s.v.set x b := rfl
@[simp] theorem State.setReg_pc (x : Reg) (b : Byte) : (s.setReg x b).pc = s.pc := rfl
@[simp] theorem State.setReg_i (x : Reg) (b : Byte) : (s.setReg x b).i = s.i := rfl
@[simp] theorem State.setReg_stack (x : Reg) (b : Byte) : (s.setReg x b).stack = s.stack := rfl
@[simp] theorem State.setReg_sp (x : Reg) (b : Byte) : (s.setReg x b).sp = s.sp := rfl
@[simp] theorem State.setReg_dt (x : Reg) (b : Byte) : (s.setReg x b).dt = s.dt := rfl
@[simp] theorem State.setReg_st (x : Reg) (b : Byte) : (s.setReg x b).st = s.st := rfl
@[simp] theorem State.setReg_mem (x : Reg) (b : Byte) : (s.setReg x b).mem = s.mem := rfl
@[simp] theorem State.setReg_fb (x : Reg) (b : Byte) : (s.setReg x b).fb = s.fb := rfl
@[simp] theorem State.setReg_draw (x : Reg) (b : Byte) : (s.setReg x b).draw = s.draw := rfl
@[simp] theorem State.setReg_key (x : Reg) (b : Byte) : (s.setReg x b).key = s.key := rfl
@[simp] theorem State.setReg_status (x : Reg) (b : Byte) : (s.setReg x b).status = s.status := rfl
@[simp] theorem State.setReg_rndCount (x : Reg) (b : Byte) : (s.setReg x b).rndCount = s.rndCount := rfl

/-! ### setFlagThenReg -/

@[simp] theorem State.setFlagThenReg_v (f : Byte) (x : Reg) (b : Byte) : (s.setFlagThenReg f x b).v = (s.v.set vf f).set x b := rfl
@[simp] theorem State.setFlagThenReg_pc (f : Byte) (x : Reg) (b : Byte) : (s.setFlagThenReg f x b).pc = s.pc := rfl
@[simp] theorem State.setFlagThenReg_i (f : Byte) (x : Reg) (b : Byte) : (s.setFlagThenReg f x b).i = s.i := rfl
@[simp] theorem State.setFlagThenReg_stack (f : Byte) (x : Reg) (b : Byte) : (s.setFlagThenReg f x b).stack = s.stack := rfl
@[simp] theorem State.setFlagThenReg_sp (f : Byte) (x : Reg) (b : Byte) : (s.setFlagThenReg f x b).sp = s.sp := rfl
@[simp] theorem State.setFlagThenReg_dt (f : Byte) (x : Reg) (b : Byte) : (s.setFlagThenReg f x b).dt = s.dt := rfl
@[simp] theorem State.setFlagThenReg_st (f : Byte) (x : Reg) (b : Byte) : (s.setFlagThenReg f x b).st = s.st := rfl
@[simp] theorem State.setFlagThenReg_mem (f : Byte) (x : Reg) (b : Byte) : (s.setFlagThenReg f x b).mem = s.mem := rfl
@[simp] theorem State.setFlagThenReg_fb (f : Byte) (x : Reg) (b : Byte) : (s.setFlagThenReg f x b).fb = s.fb := rfl
@[simp] theorem State.setFlagThenReg_draw (f : Byte) (x : Reg) (b : Byte) : (s.setFlagThenReg f x b).draw = s.draw := rfl
@[simp] theorem State.setFlagThenReg_key (f : Byte) (x : Reg) (b : Byte) : (s.setFlagThenReg f x b).key = s.key := rfl
@[simp] theorem State.setFlagThenReg_status (f : Byte) (x : Reg) (b : Byte) : (s.setFlagThenReg f x b).status = s.status := rfl
@[simp] theorem State.setFlagThenReg_rndCount (f : Byte) (x : Reg) (b : Byte) : (s.setFlagThenReg f x b).rndCount = s.rndCount := rfl

/-! ### setI -/

@[simp] theorem State.setI_v (w : Word) : (s.setI w).v = s.v := rfl
@[simp] theorem State.setI_pc (w : Word) : (s.setI w).pc = s.pc := rfl
@[simp] theorem State.setI_i (w : Word) : (s.setI w).i = w := rfl
@[simp] theorem State.setI_stack (w : Word) : (s.setI w).stack = s.stack := rfl
@[simp] theorem State.setI_sp (w : Word) : (s.setI w).sp = s.sp := rfl
@[simp] theorem State.setI_dt (w : Word) : (s.setI w).dt = s.dt := rfl
@[simp] theorem State.setI_st (w : Word) : (s.setI w).st = s.st := rfl
@[simp] theorem State.setI_mem (w : Word) : (s.setI w).mem = s.mem := rfl
@[simp] theorem State.setI_fb (w : Word) : (s.setI w).fb = s.fb := rfl
@[simp] theorem State.setI_draw (w : Word) : (s.setI w).draw = s.draw := rfl
@[simp] theorem State.setI_key (w : Word) : (s.setI w).key = s.key := rfl
@[simp] theorem State.setI_status (w : Word) : (s.setI w).status = s.status := rfl
@[simp] theorem State.setI_rndCount (w : Word) : (s.setI w).rndCount = s.rndCount := rfl

/-! ### storeBytes -/

@[simp] theorem State.storeBytes_v (a : Nat) (bs : List Byte) : (s.storeBytes a bs).v = s.v := rfl
@[simp] theorem State.storeBytes_pc (a : Nat) (bs : List Byte) : (s.storeBytes a bs).pc = s.pc := rfl
@[simp] theorem State.storeBytes_i (a : Nat) (bs : List Byte) : (s.storeBytes a bs).i = s.i := rfl
@[simp] theorem State.storeBytes_stack (a : Nat) (bs : List Byte) : (s.storeBytes a bs).stack = s.stack := rfl
@[simp] theorem State.storeBytes_sp (a : Nat) (bs : List Byte) : (s.storeBytes a bs).sp = s.sp := rfl
@[simp] theorem State.storeBytes_dt (a : Nat) (bs : List Byte) : (s.storeBytes a bs).dt = s.dt := rfl
@[simp] theorem State.storeBytes_st (a : Nat) (bs : List Byte) : (s.storeBytes a bs).st = s.st := rfl
@[simp] theorem State.storeBytes_mem (a : Nat) (bs : List Byte) : (s.storeBytes a bs).mem = s.mem.writeBytes a bs := rfl
@[simp] theorem State.storeBytes_fb (a : Nat) (bs : List Byte) : (s.storeBytes a bs).fb = s.fb := rfl
@[simp] theorem State.storeBytes_draw (a : Nat) (bs : List Byte) : (s.storeBytes a bs).draw = s.draw := rfl
@[simp] theorem State.storeBytes_key (a : Nat) (bs : List Byte) : (s.storeBytes a bs).key = s.key := rfl
@[simp] theorem State.storeBytes_status (a : Nat) (bs : List Byte) : (s.storeBytes a bs).status = s.status := rfl
@[simp] theorem State.storeBytes_rndCount (a : Nat) (bs : List Byte) : (s.storeBytes a bs).rndCount = s.rndCount := rfl

/-! ### loadRegsUpTo -/

@[simp] theorem State.loadRegsUpTo_pc (x : Reg) (a : Nat) : (s.loadRegsUpTo x a).pc = s.pc := rfl
@[simp] theorem State.loadRegsUpTo_i (x : Reg) (a : Nat) : (s.loadRegsUpTo x a).i = s.i := rfl
@[simp] theorem State.loadRegsUpTo_stack (x : Reg) (a : Nat) : (s.loadRegsUpTo x a).stack = s.stack := rfl
@[simp] theorem State.loadRegsUpTo_sp (x : Reg) (a : Nat) : (s.loadRegsUpTo x a).sp = s.sp := rfl
@[simp] theorem State.loadRegsUpTo_dt (x : Reg) (a : Nat) : (s.loadRegsUpTo x a).dt = s.dt := rfl
@[simp] theorem State.loadRegsUpTo_st (x : Reg) (a : Nat) : (s.loadRegsUpTo x a).st = s.st := rfl
@[simp] theorem State.loadRegsUpTo_mem (x : Reg) (a : Nat) : (s.loadRegsUpTo x a).mem = s.mem := rfl
@[simp] theorem State.loadRegsUpTo_fb (x : Reg) (a : Nat) : (s.loadRegsUpTo x a).fb = s.fb := rfl
@[simp] theorem State.loadRegsUpTo_draw (x : Reg) (a : Nat) : (s.loadRegsUpTo x a).draw = s.draw := rfl
@[simp] theorem State.loadRegsUpTo_key (x : Reg) (a : Nat) : (s.loadRegsUpTo x a).key = s.key := rfl
@[simp] theorem State.loadRegsUpTo_status (x : Reg) (a : Nat) : (s.loadRegsUpTo x a).status = s.status := rfl
@[simp] theorem State.loadRegsUpTo_rndCount (x : Reg) (a : Nat) : (s.loadRegsUpTo x a).rndCount = s.rndCount := rfl

/-! ### timerPass -/

@[simp] theorem State.timerPass_v : (s.timerPass).v = s.v := rfl
@[simp] theorem State.timerPass_pc : (s.timerPass).pc = s.pc := rfl
@[simp] theorem State.timerPass_i : (s.timerPass).i = s.i := rfl
@[simp] theorem State.timerPass_stack : (s.timerPass).stack = s.stack := rfl
@[simp] theorem State.timerPass_sp : (s.timerPass).sp = s.sp := rfl
@[simp] theorem State.timerPass_dt : (s.timerPass).dt = tick s.dt := rfl
@[simp] theorem State.timerPass_st : (s.timerPass).st = tick s.st := rfl
@[simp] theorem State.timerPass_mem : (s.timerPass).mem = s.mem := rfl
@[simp] theorem State.timerPass_fb : (s.timerPass).fb = s.fb := rfl
@[simp] theorem State.timerPass_draw : (s.timerPass).draw = s.draw := rfl
@[simp] theorem State.timerPass_key : (s.timerPass).key = s.key := rfl
@[simp] theorem State.timerPass_status : (s.timerPass).status = s.status := rfl
@[simp] theorem State.timerPass_rndCount : (s.timerPass).rndCount = s.rndCount := rfl

/-! ### skipIf: only PC may change -/

@[simp] theorem State.skipIf_v (b : Bool) : (s.skipIf b).v = s.v := by cases b <;> rfl
@[simp] theorem State.skipIf_pc (b : Bool) : (s.skipIf b).pc = if b then s.pc + 2 else s.pc := by
  cases b <;> rfl
@[simp] theorem State.skipIf_i (b : Bool) : (s.skipIf b).i = s.i := by cases b <;> rfl
@[simp] theorem State.skipIf_stack (b : Bool) : (s.skipIf b).stack = s.stack := by cases b <;> rfl
@[simp] theorem State.skipIf_sp (b : Bool) : (s.skipIf b).sp = s.sp := by cases b <;> rfl
@[simp] theorem State.skipIf_dt (b : Bool) : (s.skipIf b).dt = s.dt := by cases b <;> rfl
@[simp] theorem State.skipIf_st (b : Bool) : (s.skipIf b).st = s.st := by cases b <;> rfl
@[simp] theorem State.skipIf_mem (b : Bool) : (s.skipIf b).mem = s.mem := by cases b <;> rfl
@[simp] theorem State.skipIf_fb (b : Bool) : (s.skipIf b).fb = s.fb := by cases b <;> rfl
@[simp] theorem State.skipIf_draw (b : Bool) : (s.skipIf b).draw = s.draw := by cases b <;> rfl
@[simp] theorem State.skipIf_key (b : Bool) : (s.skipIf b).key = s.key := by cases b <;> rfl
@[simp] theorem State.skipIf_status (b : Bool) : (s.skipIf b).status = s.status := by cases b <;> rfl
@[simp] theorem State.skipIf_rndCount (b : Bool) : (s.skipIf b).rndCount = s.rndCount := by cases b <;> rfl

/-! ### General registers -/

theorem State.reg_setReg (x r : Reg) (b : Byte) :
    (s.setReg x b).reg r = if r = x then b else s.reg r := by
  by_cases h : r = x
  · subst h; simp [State.reg]
  · have : x.val ≠ r.val := fun e => h (Fin.ext e.symm)
    simp [State.reg, h, this]

@[simp] theorem State.reg_setReg_self (x : Reg) (b : Byte) : (s.setReg x b).reg x = b := by
  simp [State.reg_setReg]

@[simp] theorem State.reg_setReg_ne {x r : Reg} (b : Byte) (h : r ≠ x) :
    (s.setReg x b).reg r = s.reg r := by
  simp [State.reg_setReg, h]

/-- The result register wins over the flag where the two are one register (10_state.md R12). -/
theorem State.reg_setFlagThenReg (f : Byte) (x r : Reg) (b : Byte) :
    (s.setFlagThenReg f x b).reg r = if r = x then b else if r = vf then f else s.reg r := by
  simp [State.setFlagThenReg, State.reg_setReg]

theorem State.reg_loadRegsUpTo (x r : Reg) (a : Nat) :
    (s.loadRegsUpTo x a).reg r = if r ≤ x then s.mem.read (a + r.val) else s.reg r := by
  simp [State.loadRegsUpTo, State.reg]

/-- A register reads from the field `v` alone. -/
theorem State.reg_congr {s t : State} (h : t.v = s.v) (r : Reg) : t.reg r = s.reg r := by
  simp [State.reg, h]

end Sys2Proof.Machine
end

