-- ==== Sys2Proof/Laws/Ops.lean ====
section
/-! SUPPORT. What each shared operation can do, said once; the values of the flags as numbers; and
what one step can do. -/

namespace Sys2Proof.Machine

variable (s : State)

/-! ### Results -/

theorem finish_eq : finish s = .next (s.report .ok) := rfl

theorem raise_eq (cause : Word → Status) : raise cause s = .next (s.report (cause (s.pc - 2))) := rfl

theorem withinMemory_of_le {base count : Nat} (body : StepResult)
    (h : count = 0 ∨ base + count ≤ 4096) : withinMemory s base count body = body := by
  rw [withinMemory, if_pos ((inMemory_iff base count).2 h)]

theorem withinMemory_of_gt {base count : Nat} (body : StepResult) (hc : count ≠ 0)
    (h : 4096 < base + count) : withinMemory s base count body =
      raise (.boundsFault .data (offendingIndex base (base + count - 1))) s := by
  rw [withinMemory, if_neg]
  rw [inMemory_iff]
  omega

/-- The address reported is one of the access's addresses above 0x0FFF. -/
theorem offendingIndex_bounds {first last : Nat} (h : 0x0FFF < last) (hf : first ≤ last) :
    first ≤ offendingIndex first last ∧ 0x0FFF < offendingIndex first last ∧
      offendingIndex first last ≤ last := by
  have hm := Nat.mod_lt (Config.offending first last) (y := last + 1 - max first 0x1000) (by omega)
  simp only [offendingIndex]
  omega

theorem withKey_of_lt {k : Byte} (body : Bool → StepResult) (h : k.toNat < 16) :
    withKey s k body = body s.key[k.toNat] := by
  rw [withKey, dif_pos h]

theorem withKey_of_ge {k : Byte} (body : Bool → StepResult) (h : 16 ≤ k.toNat) :
    withKey s k body = raise (.boundsFault .key k.toNat) s := by
  rw [withKey, dif_neg (by omega)]

/-- Everything a range-checked access can do. -/
theorem withinMemory_cases {s t : State} {base count : Nat} {body : StepResult}
    (h : withinMemory s base count body = .next t) :
    ((count = 0 ∨ base + count ≤ 4096) ∧ body = .next t) ∨
    (count ≠ 0 ∧ 4096 < base + count ∧
      t = s.report (.boundsFault .data (offendingIndex base (base + count - 1)) (s.pc - 2))) := by
  by_cases hc : count = 0 ∨ base + count ≤ 4096
  · rw [withinMemory_of_le s _ hc] at h
    exact .inl ⟨hc, h⟩
  · rw [withinMemory_of_gt s _ (by omega) (by omega), raise_eq] at h
    cases h
    exact .inr ⟨by omega, by omega, rfl⟩

/-- Everything a read of a key by number can do. -/
theorem withKey_cases {s t : State} {k : Byte} {body : Bool → StepResult}
    (h : withKey s k body = .next t) :
    (∃ j : Fin 16, k.toNat = j.val ∧ body s.key[j] = .next t) ∨
    (15 < k.toNat ∧ t = s.report (.boundsFault .key k.toNat (s.pc - 2))) := by
  by_cases hc : k.toNat < 16
  · rw [withKey_of_lt s _ hc] at h
    exact .inl ⟨⟨_, hc⟩, rfl, h⟩
  · rw [withKey_of_ge s _ (by omega), raise_eq] at h
    cases h
    exact .inr ⟨by omega, rfl⟩

theorem firstPressed_none {key : Vector Bool 16} :
    firstPressed key = none ↔ ∀ k : Fin 16, key[k] = false := by
  simp [firstPressed]

/-- The least pressed key (44_keypad_timers.md R153). -/
theorem firstPressed_some {key : Vector Bool 16} {k : Fin 16} (h : firstPressed key = some k) :
    key[k] = true ∧ ∀ j : Fin 16, j < k → key[j] = false := by
  rw [firstPressed, List.find?_eq_some_iff_getElem] at h
  obtain ⟨hk, n, hn, he, hlt⟩ := h
  refine ⟨hk, fun j hj => ?_⟩
  have hkn : k.val = n := by simpa using congrArg Fin.val he.symm
  have := hlt j.val (by omega)
  simpa using this

/-! ### Stack -/

theorem State.push_of_lt {w : Word} (h : s.sp.val < 16) :
    s.push w = some { s with stack := s.stack.set s.sp.val w, sp := ⟨s.sp.val + 1, by omega⟩ } := by
  rw [State.push, dif_pos h]

theorem State.push_of_full {w : Word} (h : ¬ s.sp.val < 16) : s.push w = none := by
  rw [State.push, dif_neg h]

theorem State.pop_of_pos (h : 0 < s.sp.val) :
    s.pop = some (s.stack[s.sp.val - 1]'(by omega),
      { s with sp := ⟨s.sp.val - 1, by omega⟩ }) := by
  rw [State.pop, dif_pos h]

theorem State.pop_of_empty (h : s.sp.val = 0) : s.pop = none := by
  rw [State.pop, dif_neg (by omega)]

/-! ### Fetch -/

theorem fetchWord_of_le (h : s.pc.toNat ≤ 0x0FFE) :
    fetchWord s = some (joinBytes (s.mem.read s.pc.toNat) (s.mem.read (s.pc.toNat + 1))) := by
  rw [fetchWord, if_pos h]

theorem fetchWord_none : fetchWord s = none ↔ 0x0FFE < s.pc.toNat := by
  simp [fetchWord]

theorem fetchWord_some_pc {w : Word} (h : fetchWord s = some w) : s.pc.toNat ≤ 0x0FFE := by
  by_contra hc
  rw [(fetchWord_none s).2 (by omega)] at h
  cases h

/-! ### Timers and the end of a step -/

theorem tick_toNat (t : Byte) : (tick t).toNat = t.toNat - 1 := by
  unfold tick
  split
  · next h => simp [h]
  · next h =>
    have : t.toNat ≠ 0 := fun e => h (BitVec.eq_of_toNat_eq (by simpa using e))
    rw [BitVec.toNat_sub_of_le (by simp [BitVec.le_def]; omega)]
    simp

theorem tick_eq (t : Byte) : tick t = BitVec.ofNat 8 (t.toNat - 1) := by
  apply BitVec.eq_of_toNat_eq
  have := t.isLt
  simp [tick_toNat]
  omega

theorem State.timerPass_eq : s.timerPass = { s with
    dt := BitVec.ofNat 8 (s.dt.toNat - 1), st := BitVec.ofNat 8 (s.st.toNat - 1) } := by
  simp only [State.timerPass, tick_eq]

theorem endStep_next {r : StepResult} {t : State} :
    endStep r = .next t ↔ ∃ u, r = .next u ∧ t = u.timerPass := by
  cases r <;> simp [endStep, eq_comm]

/-- What one step can do: a failed fetch, an undecodable word, or the decoded instruction, and in
each case the timer pass last (60_exceptions.md R170). -/
theorem step_cases {s t : State} (h : step s = .next t) :
    (fetchWord s = none ∧
      t = (s.report (.boundsFault .fetch (offendingIndex s.pc.toNat (s.pc.toNat + 1)) s.pc)).timerPass) ∨
    (∃ w r, fetchWord s = some w ∧ decodeWord w = .error r ∧
      t = (s.advance.report (.decodeError w s.pc)).timerPass) ∨
    (∃ w i u, fetchWord s = some w ∧ decodeWord w = .ok i ∧ exec i s.advance = .next u ∧
      t = u.timerPass) := by
  unfold step at h
  obtain ⟨u, hu, rfl⟩ := endStep_next.1 h
  split at hu
  · next hf =>
    refine .inl ⟨hf, ?_⟩
    rw [reportFetchFault] at hu
    cases hu
    rfl
  · next w hf =>
    split at hu
    · next r hd =>
      refine .inr (.inl ⟨w, r, hf, hd, ?_⟩)
      rw [reportDecodeError, raise_eq] at hu
      cases hu
      simp
    · next i hd => exact .inr (.inr ⟨w, i, u, hf, hd, hu, rfl⟩)

/-- The step when the word at PC is an instruction. -/
theorem step_of_decoded {s : State} {w : Word} {i : Instr} (hf : fetchWord s = some w)
    (hd : decodeWord w = .ok i) : step s = endStep (exec i s.advance) := by
  rw [step, hf]
  simp only [hd]

theorem nextInstr_eq_some {s : State} {i : Instr} :
    nextInstr s = some i ↔ ∃ w, fetchWord s = some w ∧ decodeWord w = .ok i := by
  unfold nextInstr
  split
  · next h => simp [h]
  · next w h =>
    split
    · next hd => simp [h, hd]
    · next j hd => simp [h, hd]

theorem step_of_nextInstr {s : State} {i : Instr} (h : nextInstr s = some i) :
    step s = endStep (exec i s.advance) := by
  obtain ⟨w, hf, hd⟩ := nextInstr_eq_some.1 h
  exact step_of_decoded hf hd

/-- A run of `n + 1` steps of any core whose first step is known. -/
theorem run_succ_of_next (M : Host.Core) (n : Nat) {s t : M.State} (h : M.step s = .next t) :
    M.run (n + 1) s = M.run n t := by
  simp only [Host.Core.run, h]

/-- A run of `n + 1` steps whose first step is known. -/
theorem core_run_succ {s t : State} (n : Nat) (h : step s = .next t) :
    Host.Core.run Sys2Proof.core (n + 1) s = Host.Core.run Sys2Proof.core n t :=
  run_succ_of_next Sys2Proof.core n h

/-! ### Flags as numbers (41_alu.md R111) -/

theorem flagByte_toNat (b : Bool) : (flagByte b).toNat = if b = true then 1 else 0 := by
  cases b <;> rfl

theorem sum9_toNat (a b : Byte) : (sum9 a b).toNat = a.toNat + b.toNat := by
  have := a.isLt
  have := b.isLt
  simp [sum9, BitVec.toNat_add]
  omega

theorem carryFlag_toNat (a b : Byte) :
    (carryFlag a b).toNat = if a.toNat + b.toNat > 255 then 1 else 0 := by
  have ha := a.isLt
  have hb := b.isLt
  have h : (sum9 a b)[8] = decide (a.toNat + b.toNat > 255) := by
    have : (sum9 a b)[8] = (sum9 a b).getLsbD 8 := rfl
    rw [this, ← BitVec.msb_eq_getLsbD_last (w := 9), BitVec.msb_eq_decide, sum9_toNat]
    simp
    omega
  rw [carryFlag, flagByte_toNat, h]
  simp

theorem sum9_low_toNat (a b : Byte) :
    ((sum9 a b).truncate 8).toNat = (a.toNat + b.toNat) % 256 := by
  simp [sum9_toNat]

theorem notBorrowFlag_toNat (a b : Byte) :
    (notBorrowFlag a b).toNat = if a.toNat ≥ b.toNat then 1 else 0 := by
  rw [notBorrowFlag, flagByte_toNat]
  simp [BitVec.le_def]

theorem shiftOutRight_toNat (a : Byte) : (shiftOutRight a).toNat = a.toNat % 2 := by
  rw [shiftOutRight, flagByte_toNat]
  simp [BitVec.getElem_eq_testBit_toNat]
  split <;> omega

theorem shiftOutLeft_toNat (a : Byte) : (shiftOutLeft a).toNat = a.toNat / 128 := by
  have := a.isLt
  have h : a[7] = decide (128 ≤ a.toNat) := by
    have : a[7] = a.getLsbD 7 := rfl
    rw [this, ← BitVec.msb_eq_getLsbD_last (w := 8), BitVec.msb_eq_decide]
  rw [shiftOutLeft, flagByte_toNat, h]
  simp
  split <;> omega

end Sys2Proof.Machine
end

