-- ==== Sys2Proof/Laws/PerInstr.lean ====
section
/-! SUPPORT. Statements made per instruction. Family `EncodesInItsRow`: the word the encoder writes
matches the instruction's row of the opcode table, and no bit the decoder ignores is set in it
(30_encoding.md R70, R73, R74). -/

namespace Sys2Proof.Laws.EncodesInItsRow

/-- The instruction's word, ANDed with its row's mask, is its row's pattern, and its ignored bits
are 0. -/
def Statement (i : Instr) : Prop :=
  encode i &&& i.row.mask = i.row.pattern ∧ encode i &&& ignoredBits i = 0

/-- A word given as a number matches a row of mask F000. -/
theorem of_F000 {w : Word} {c r : Nat} (hc : c < 16) (hr : r < 4096)
    (h : w.toNat = c * 4096 + r) : w &&& 0xF000#16 = BitVec.ofNat 16 (c * 4096) := by
  apply BitVec.eq_of_toNat_eq
  rw [and_F000_toNat, h]
  simp
  omega

/-- A word given as a number matches a row of mask F00F. -/
theorem of_F00F {w : Word} {c x n : Nat} (hc : c < 16) (hx : x < 256) (hn : n < 16)
    (h : w.toNat = c * 4096 + x * 16 + n) :
    w &&& 0xF00F#16 = BitVec.ofNat 16 (c * 4096 + n) := by
  apply BitVec.eq_of_toNat_eq
  rw [and_F00F_toNat, h]
  simp
  omega

/-- A word given as a number matches a row of mask F0FF. -/
theorem of_F0FF {w : Word} {c x n : Nat} (hc : c < 16) (hx : x < 16) (hn : n < 256)
    (h : w.toNat = c * 4096 + x * 256 + n) :
    w &&& 0xF0FF#16 = BitVec.ofNat 16 (c * 4096 + n) := by
  apply BitVec.eq_of_toNat_eq
  rw [and_F0FF_toNat, h]
  simp
  omega

/-! ### The three layouts of the encoder -/

theorem wordNNN_row (c : BitVec 4) (a : BitVec 12) :
    wordNNN c a &&& 0xF000#16 = BitVec.ofNat 16 (c.toNat * 4096) :=
  of_F000 c.isLt a.isLt (wordNNN_toNat c a)

theorem wordXNN_row (c : BitVec 4) (x : Reg) (nn : Byte) :
    wordXNN c x nn &&& 0xF000#16 = BitVec.ofNat 16 (c.toNat * 4096) := by
  have h := wordXNN_toNat c x nn
  have hx := x.isLt
  have hc := c.isLt
  have hn := nn.isLt
  exact of_F000 (r := x.val * 256 + nn.toNat) (by clear h; omega) (by clear h; omega) (h.trans (by clear h; omega))

theorem wordX_row (c : BitVec 4) (x : Reg) (nn : Byte) :
    wordXNN c x nn &&& 0xF0FF#16 = BitVec.ofNat 16 (c.toNat * 4096 + nn.toNat) := by
  have h := wordXNN_toNat c x nn
  have hc := c.isLt
  have hn := nn.isLt
  exact of_F0FF (x := x.val) (by clear h; omega) x.isLt (by clear h; omega) h

theorem wordXYN_row (c : BitVec 4) (x y : Reg) (n : BitVec 4) :
    wordXYN c x y n &&& 0xF000#16 = BitVec.ofNat 16 (c.toNat * 4096) := by
  have h := wordXYN_toNat c x y n
  have hx := x.isLt
  have hy := y.isLt
  have hc := c.isLt
  have hn := n.isLt
  exact of_F000 (r := x.val * 256 + y.val * 16 + n.toNat) (by clear h; omega) (by clear h; omega)
    (h.trans (by clear h; omega))

theorem wordXY_row (c : BitVec 4) (x y : Reg) (n : BitVec 4) :
    wordXYN c x y n &&& 0xF00F#16 = BitVec.ofNat 16 (c.toNat * 4096 + n.toNat) := by
  have h := wordXYN_toNat c x y n
  have hx := x.isLt
  have hy := y.isLt
  have hc := c.isLt
  have hn := n.isLt
  exact of_F00F (x := x.val * 16 + y.val) (by clear h; omega) (by clear h; omega)
    (by clear h; omega) (h.trans (by clear h; omega))

theorem wordXYN_N (c : BitVec 4) (x y : Reg) (n : BitVec 4) :
    wordXYN c x y n &&& 0x000F#16 = BitVec.ofNat 16 n.toNat := by
  apply BitVec.eq_of_toNat_eq
  have h := wordXYN_toNat c x y n
  have hx := x.isLt
  have hy := y.isLt
  have hn := n.isLt
  have e := Nat.and_two_pow_sub_one_eq_mod (wordXYN c x y n).toNat 4
  rw [h] at e
  simp at e ⊢
  rw [h, e]
  clear h e
  omega

/-- With Y = 0 the four bits of Y are 0. -/
theorem wordXYN_Y0 (c : BitVec 4) (x : Reg) (n : BitVec 4) :
    wordXYN c x 0 n &&& 0x00F0#16 = 0 := by
  revert c x n
  decide

/-! ### One lemma per instruction -/

theorem cls : Statement .cls := ⟨by decide, by decide⟩

theorem ret : Statement .ret := ⟨by decide, by decide⟩

theorem jp (addr : BitVec 12) : Statement (.jp addr) := ⟨wordNNN_row _ _, BitVec.and_zero⟩

theorem call (addr : BitVec 12) : Statement (.call addr) := ⟨wordNNN_row _ _, BitVec.and_zero⟩

theorem seByte (x : Reg) (nn : Byte) : Statement (.seByte x nn) := ⟨wordXNN_row _ _ _, BitVec.and_zero⟩

theorem sneByte (x : Reg) (nn : Byte) : Statement (.sneByte x nn) := ⟨wordXNN_row _ _ _, BitVec.and_zero⟩

theorem seReg (x y : Reg) : Statement (.seReg x y) := ⟨wordXYN_row _ _ _ _, wordXYN_N _ _ _ _⟩

theorem ldByte (x : Reg) (nn : Byte) : Statement (.ldByte x nn) := ⟨wordXNN_row _ _ _, BitVec.and_zero⟩

theorem addByte (x : Reg) (nn : Byte) : Statement (.addByte x nn) := ⟨wordXNN_row _ _ _, BitVec.and_zero⟩

theorem ldReg (x y : Reg) : Statement (.ldReg x y) := ⟨wordXY_row _ _ _ _, BitVec.and_zero⟩

theorem or (x y : Reg) : Statement (.or x y) := ⟨wordXY_row _ _ _ _, BitVec.and_zero⟩

theorem and (x y : Reg) : Statement (.and x y) := ⟨wordXY_row _ _ _ _, BitVec.and_zero⟩

theorem xor (x y : Reg) : Statement (.xor x y) := ⟨wordXY_row _ _ _ _, BitVec.and_zero⟩

theorem addReg (x y : Reg) : Statement (.addReg x y) := ⟨wordXY_row _ _ _ _, BitVec.and_zero⟩

theorem sub (x y : Reg) : Statement (.sub x y) := ⟨wordXY_row _ _ _ _, BitVec.and_zero⟩

theorem shr (x : Reg) : Statement (.shr x) := ⟨wordXY_row _ _ _ _, wordXYN_Y0 _ _ _⟩

theorem subn (x y : Reg) : Statement (.subn x y) := ⟨wordXY_row _ _ _ _, BitVec.and_zero⟩

theorem shl (x : Reg) : Statement (.shl x) := ⟨wordXY_row _ _ _ _, wordXYN_Y0 _ _ _⟩

theorem sneReg (x y : Reg) : Statement (.sneReg x y) := ⟨wordXYN_row _ _ _ _, wordXYN_N _ _ _ _⟩

theorem ldI (addr : BitVec 12) : Statement (.ldI addr) := ⟨wordNNN_row _ _, BitVec.and_zero⟩

theorem jpV0 (addr : BitVec 12) : Statement (.jpV0 addr) := ⟨wordNNN_row _ _, BitVec.and_zero⟩

theorem rnd (x : Reg) (nn : Byte) : Statement (.rnd x nn) := ⟨wordXNN_row _ _ _, BitVec.and_zero⟩

theorem drw (x y : Reg) (n : Fin 16) : Statement (.drw x y n) := ⟨wordXYN_row _ _ _ _, BitVec.and_zero⟩

theorem skp (x : Reg) : Statement (.skp x) := ⟨wordX_row _ _ _, BitVec.and_zero⟩

theorem sknp (x : Reg) : Statement (.sknp x) := ⟨wordX_row _ _ _, BitVec.and_zero⟩

theorem ldVxDt (x : Reg) : Statement (.ldVxDt x) := ⟨wordX_row _ _ _, BitVec.and_zero⟩

theorem ldVxK (x : Reg) : Statement (.ldVxK x) := ⟨wordX_row _ _ _, BitVec.and_zero⟩

theorem ldDtVx (x : Reg) : Statement (.ldDtVx x) := ⟨wordX_row _ _ _, BitVec.and_zero⟩

theorem ldStVx (x : Reg) : Statement (.ldStVx x) := ⟨wordX_row _ _ _, BitVec.and_zero⟩

theorem addI (x : Reg) : Statement (.addI x) := ⟨wordX_row _ _ _, BitVec.and_zero⟩

theorem ldF (x : Reg) : Statement (.ldF x) := ⟨wordX_row _ _ _, BitVec.and_zero⟩

theorem ldB (x : Reg) : Statement (.ldB x) := ⟨wordX_row _ _ _, BitVec.and_zero⟩

theorem storeRegs (x : Reg) : Statement (.storeRegs x) := ⟨wordX_row _ _ _, BitVec.and_zero⟩

theorem loadRegs (x : Reg) : Statement (.loadRegs x) := ⟨wordX_row _ _ _, BitVec.and_zero⟩

end Sys2Proof.Laws.EncodesInItsRow
end

