-- ==== Sys2Proof/Laws/Pixels.lean ====
section
/-! SUPPORT. The pixel-write engine: one toggle, one row of a sprite, and the whole sprite, each
said once as what it does to every pixel and to the collision flag (43_display.md R141, R142). -/

namespace Sys2Proof.Machine

/-! ### One pixel -/

theorem Framebuffer.pixel_toggle (fb : Framebuffer) (x px : Fin 64) (y py : Fin 32) :
    (fb.toggle x y).pixel px py = (fb.pixel px py ^^ decide (px = x ∧ py = y)) := by
  by_cases hy : py = y
  · subst hy
    by_cases hx : px = x
    · subst hx
      simp [Framebuffer.pixel, Framebuffer.toggle]
    · have : x.val ≠ px.val := fun e => hx (Fin.ext e.symm)
      have this' : ¬ px.val = x.val := fun e => this e.symm
      simp [Framebuffer.pixel, Framebuffer.toggle, hx, this']
  · have : y.val ≠ py.val := fun e => hy (Fin.ext e.symm)
    simp [Framebuffer.pixel, Framebuffer.toggle, hy, this]

@[simp] theorem Framebuffer.pixel_clear (px : Fin 64) (py : Fin 32) :
    Framebuffer.clear.pixel px py = false := by
  simp [Framebuffer.pixel, Framebuffer.clear]

/-- Two framebuffers with the same pixels are equal. -/
theorem Framebuffer.ext {fb fb' : Framebuffer} (h : ∀ px py, fb.pixel px py = fb'.pixel px py) :
    fb = fb' := by
  apply Vector.ext
  intro y hy
  apply BitVec.eq_of_getLsbD_eq
  intro x hx
  exact h ⟨x, hx⟩ ⟨y, hy⟩

/-! ### What a drawing does, as a change of canvas -/

/-- `d'` comes from `d` by toggling exactly the pixels of `P`, and its collision flag is that of `d`
or that some pixel of `P` was set. -/
def Canvas.Toggles (P : Fin 64 → Fin 32 → Prop) (d d' : Canvas) : Prop :=
  (∀ px py, P px py → d'.fb.pixel px py = !d.fb.pixel px py) ∧
  (∀ px py, ¬ P px py → d'.fb.pixel px py = d.fb.pixel px py) ∧
  (d'.hit = true ↔ d.hit = true ∨ ∃ px py, P px py ∧ d.fb.pixel px py = true)

theorem Canvas.toggles_refl (d : Canvas) : Canvas.Toggles (fun _ _ => False) d d := by
  simp [Canvas.Toggles]

theorem Canvas.toggles_toggle (d : Canvas) (x : Fin 64) (y : Fin 32) :
    Canvas.Toggles (fun px py => px = x ∧ py = y) d (d.toggle x y) := by
  refine ⟨?_, ?_, ?_⟩
  · rintro px py ⟨rfl, rfl⟩
    simp [Canvas.toggle, Framebuffer.pixel_toggle]
  · intro px py h
    simp [Canvas.toggle, Framebuffer.pixel_toggle, h]
  · simp only [Canvas.toggle, Bool.or_eq_true]
    constructor
    · rintro (h | h)
      · exact .inl h
      · exact .inr ⟨x, y, ⟨rfl, rfl⟩, h⟩
    · rintro (h | ⟨px, py, ⟨rfl, rfl⟩, h⟩)
      · exact .inl h
      · exact .inr h

/-- Two drawings of disjoint pixel sets, one after the other, toggle the union: no pixel is toggled
twice (R142). -/
theorem Canvas.Toggles.trans {P Q : Fin 64 → Fin 32 → Prop} {d d' d'' : Canvas}
    (h : Canvas.Toggles P d d') (h' : Canvas.Toggles Q d' d'')
    (hd : ∀ px py, P px py → ¬ Q px py) :
    Canvas.Toggles (fun px py => P px py ∨ Q px py) d d'' := by
  obtain ⟨h1, h2, h3⟩ := h
  obtain ⟨k1, k2, k3⟩ := h'
  refine ⟨?_, ?_, ?_⟩
  · rintro px py (hp | hq)
    · rw [k2 px py (hd px py hp), h1 px py hp]
    · rw [k1 px py hq, h2 px py fun hp => hd px py hp hq]
  · intro px py hn
    rw [k2 px py fun hq => hn (.inr hq), h2 px py fun hp => hn (.inl hp)]
  · rw [k3, h3]
    constructor
    · rintro ((h | ⟨px, py, hp, hs⟩) | ⟨px, py, hq, hs⟩)
      · exact .inl h
      · exact .inr ⟨px, py, .inl hp, hs⟩
      · exact .inr ⟨px, py, .inr hq, by rwa [h2 px py fun hp => hd px py hp hq] at hs⟩
    · rintro (h | ⟨px, py, hp | hq, hs⟩)
      · exact .inl (.inl h)
      · exact .inl (.inr ⟨px, py, hp, hs⟩)
      · exact .inr ⟨px, py, hq, by rwa [h2 px py fun hp => hd px py hp hq]⟩

theorem Canvas.Toggles.congr {P Q : Fin 64 → Fin 32 → Prop} {d d' : Canvas}
    (h : Canvas.Toggles P d d') (e : ∀ px py, P px py ↔ Q px py) : Canvas.Toggles Q d d' := by
  have : P = Q := funext fun px => funext fun py => propext (e px py)
  exact this ▸ h

/-! ### One row of a sprite -/

/-- The pixels of columns `c` to `c + k - 1` of sprite row `r`. -/
def rowPixels (x0 y0 : Byte) (r : Nat) (row : Byte) (k c : Nat) (px : Fin 64) (py : Fin 32) : Prop :=
  ∃ c', c ≤ c' ∧ c' < c + k ∧ row.getLsbD (7 - c') = true ∧
    px = spriteColumn x0 c' ∧ py = spriteRow y0 r

theorem Canvas.toggles_drawColumns (x0 y0 : Byte) (r : Nat) (row : Byte) (k c : Nat)
    (hk : c + k ≤ 8) (d : Canvas) :
    Canvas.Toggles (rowPixels x0 y0 r row k c) d (d.drawColumns x0 y0 r row k c) := by
  induction k generalizing c d with
  | zero =>
    refine (Canvas.toggles_refl d).congr fun px py => ?_
    simp only [rowPixels, false_iff]
    rintro ⟨c', h1, h2, -⟩
    omega
  | succ k ih =>
    have htail := ih (c + 1) (by omega)
      (if row.getLsbD (7 - c) then d.toggle (spriteColumn x0 c) (spriteRow y0 r) else d)
    rw [Canvas.drawColumns]
    by_cases hb : row.getLsbD (7 - c) = true
    · rw [if_pos hb] at htail ⊢
      refine ((Canvas.toggles_toggle d _ _).trans htail ?_).congr fun px py => ?_
      · rintro px py ⟨rfl, rfl⟩ ⟨c', h1, h2, -, h4, -⟩
        have := congrArg Fin.val h4
        simp only [spriteColumn] at this
        omega
      · constructor
        · rintro (⟨rfl, rfl⟩ | ⟨c', h1, h2, h3⟩)
          · exact ⟨c, le_rfl, by omega, hb, rfl, rfl⟩
          · exact ⟨c', by omega, by omega, h3⟩
        · rintro ⟨c', h1, h2, h3, h4, h5⟩
          rcases Nat.eq_or_lt_of_le h1 with rfl | hlt
          · exact .inl ⟨h4, h5⟩
          · exact .inr ⟨c', by omega, by omega, h3, h4, h5⟩
    · rw [if_neg hb] at htail ⊢
      refine htail.congr fun px py => ?_
      constructor
      · rintro ⟨c', h1, h2, h3⟩
        exact ⟨c', by omega, by omega, h3⟩
      · rintro ⟨c', h1, h2, h3⟩
        rcases Nat.eq_or_lt_of_le h1 with rfl | hlt
        · exact absurd h3.1 hb
        · exact ⟨c', by omega, by omega, h3⟩

/-! ### The whole sprite -/

/-- The pixels of the sprite rows `rows`, the first of them being row `r`. -/
def spritePixels (x0 y0 : Byte) (r : Nat) (rows : List Byte) (px : Fin 64) (py : Fin 32) : Prop :=
  ∃ k < rows.length, ∃ c < 8, (rows.getD k 0).getLsbD (7 - c) = true ∧
    px = spriteColumn x0 c ∧ py = spriteRow y0 (r + k)

theorem Canvas.toggles_drawRows (x0 y0 : Byte) (rows : List Byte) (r : Nat)
    (hr : r + rows.length ≤ 32) (d : Canvas) :
    Canvas.Toggles (spritePixels x0 y0 r rows) d (Canvas.drawRows x0 y0 r rows d) := by
  induction rows generalizing r d with
  | nil =>
    refine (Canvas.toggles_refl d).congr fun px py => ?_
    simp [spritePixels]
  | cons row rows ih =>
    simp only [List.length_cons] at hr
    have hrow := Canvas.toggles_drawColumns x0 y0 r row 8 0 (by decide) d
    have htail := ih (r + 1) (by omega) (d.drawColumns x0 y0 r row 8 0)
    rw [Canvas.drawRows]
    refine (hrow.trans htail ?_).congr fun px py => ?_
    · rintro px py ⟨c, -, -, -, -, rfl⟩ ⟨k, hk, c', -, -, -, h⟩
      have := congrArg Fin.val h
      simp only [spriteRow] at this
      omega
    · constructor
      · rintro (⟨c, -, h2, h3, h4, h5⟩ | ⟨k, hk, c, hc, h3, h4, h5⟩)
        · exact ⟨0, by simp, c, by omega, h3, h4, h5⟩
        · refine ⟨k + 1, by simpa using hk, c, hc, by simpa using h3, h4, ?_⟩
          rwa [Nat.add_assoc, Nat.add_comm 1 k] at h5
      · rintro ⟨k, hk, c, hc, h3, h4, h5⟩
        cases k with
        | zero => exact .inl ⟨c, Nat.zero_le c, by omega, h3, h4, h5⟩
        | succ k =>
          refine .inr ⟨k, by simpa using hk, c, hc, by simpa using h3, h4, ?_⟩
          rwa [Nat.add_assoc, Nat.add_comm 1 k]

/-- What drawing a sprite does to every pixel and to the collision flag (R141). -/
theorem toggles_drawSprite (x0 y0 : Byte) (rows : List Byte) (hr : rows.length ≤ 32)
    (fb : Framebuffer) :
    Canvas.Toggles (spritePixels x0 y0 0 rows) { fb := fb, hit := false }
      (drawSprite x0 y0 rows fb) :=
  Canvas.toggles_drawRows x0 y0 rows 0 (by omega) _

end Sys2Proof.Machine
end

