-- ==== Sys2Proof/Tests/Slice0.lean ====
section
/-! SUPPORT. The model's own tests: what is refused as ill formed, words decoded as the spec encodes
them, one-step vectors of 95_test_vectors.md (its id stands before each), and for every obligation
that has hypotheses a state and operands that meet them. -/

namespace Sys2Proof.Tests

open Sys2Proof Sys2Proof.Machine

/-! ### Building a small state, and looking at one step -/

/-- Registers set, one after the other. -/
def withRegs (l : List (Reg × Byte)) (s : State) : State := l.foldl (fun s p => s.setReg p.1 p.2) s

/-- I set. -/
def withI (i : Word) (s : State) : State := { s with i := i }

/-- Exactly these keys pressed. -/
def withKeys (l : List (Fin 16)) (s : State) : State := { s with key := Vector.ofFn fun k => l.contains k }

/-- A word stored at an address, and PC there. -/
def atWord (a : Nat) (w : Word) (s : State) : State :=
  (s.storeBytes a [hiByte w, loByte w]).jump (BitVec.ofNat 16 a)

/-- One step answers a next state of which `p` holds. -/
def stepped (s : State) (p : State → Bool) : Bool :=
  match step s with
  | .next t => p t
  | .fault _ => false
  | .refused _ => false

/-- The numeric code of the status (60_exceptions.md R172). -/
def codeOf (t : State) : Option Nat := t.status.map Status.code

/-! ### Ill-formed words and images are refused (30_encoding.md R71, R72; 95_test_vectors.md S9) -/

theorem test_illformed_zero : legalWord 0x0000 = false ∧ decodeTableWord 16 0x0000 = none := by decide

theorem test_illformed_group0 : legalWord 0x01E0 = false ∧ decodeTableWord 16 0x01E0 = none := by decide

theorem test_illformed_group8 : legalWord 0x8AB8 = false ∧ decodeTableWord 16 0x8AB8 = none := by decide

theorem test_illformed_groupE : legalWord 0xE19F = false ∧ decodeTableWord 16 0xE19F = none := by decide

theorem test_illformed_groupF : legalWord 0xF100 = false ∧ decodeTableWord 16 0xF100 = none := by decide

theorem test_image_too_long : imageFits (List.replicate 3585 0x00) = false := by
  rw [imageFits, List.length_replicate]
  rfl

theorem test_image_longest : imageFits (List.replicate 3584 0x00) = true := by
  rw [imageFits, List.length_replicate]
  rfl

theorem test_table_has_34_rows : opcodeTable.length = 34 := by decide

/-! ### Every constructor from a word of the spec (95_test_vectors.md section 2.1; 30_encoding.md R73) -/

theorem test_decode_cls_to_sneByte :
    decodeTableWord 16 0x00E0 = some (.cls) ∧
    decodeTableWord 16 0x00EE = some (.ret) ∧
    decodeTableWord 16 0x1FFF = some (.jp 0xFFF) ∧
    decodeTableWord 16 0x2ABC = some (.call 0xABC) ∧
    decodeTableWord 16 0x3A7F = some (.seByte 0xA 0x7F) ∧
    decodeTableWord 16 0x4F00 = some (.sneByte 0xF 0x00) := by
  decide

theorem test_decode_seReg_to_and :
    decodeTableWord 16 0x5AB7 = some (.seReg 0xA 0xB) ∧
    decodeTableWord 16 0x6C10 = some (.ldByte 0xC 0x10) ∧
    decodeTableWord 16 0x7CFF = some (.addByte 0xC 0xFF) ∧
    decodeTableWord 16 0x8AB0 = some (.ldReg 0xA 0xB) ∧
    decodeTableWord 16 0x8AB1 = some (.or 0xA 0xB) ∧
    decodeTableWord 16 0x8AB2 = some (.and 0xA 0xB) := by
  decide

theorem test_decode_xor_to_shl :
    decodeTableWord 16 0x8AB3 = some (.xor 0xA 0xB) ∧
    decodeTableWord 16 0x8AB4 = some (.addReg 0xA 0xB) ∧
    decodeTableWord 16 0x8AB5 = some (.sub 0xA 0xB) ∧
    decodeTableWord 16 0x8AB6 = some (.shr 0xA) ∧
    decodeTableWord 16 0x8AB7 = some (.subn 0xA 0xB) ∧
    decodeTableWord 16 0x8ABE = some (.shl 0xA) := by
  decide

theorem test_decode_sneReg_to_skp :
    decodeTableWord 16 0x9ABF = some (.sneReg 0xA 0xB) ∧
    decodeTableWord 16 0xA123 = some (.ldI 0x123) ∧
    decodeTableWord 16 0xB123 = some (.jpV0 0x123) ∧
    decodeTableWord 16 0xC1F0 = some (.rnd 1 0xF0) ∧
    decodeTableWord 16 0xD125 = some (.drw 1 2 5) ∧
    decodeTableWord 16 0xE19E = some (.skp 1) := by
  decide

theorem test_decode_sknp_to_addI :
    decodeTableWord 16 0xE1A1 = some (.sknp 1) ∧
    decodeTableWord 16 0xF107 = some (.ldVxDt 1) ∧
    decodeTableWord 16 0xF10A = some (.ldVxK 1) ∧
    decodeTableWord 16 0xF115 = some (.ldDtVx 1) ∧
    decodeTableWord 16 0xF118 = some (.ldStVx 1) ∧
    decodeTableWord 16 0xF11E = some (.addI 1) := by
  decide

theorem test_decode_ldF_to_loadRegs :
    decodeTableWord 16 0xF129 = some (.ldF 1) ∧
    decodeTableWord 16 0xF133 = some (.ldB 1) ∧
    decodeTableWord 16 0xF155 = some (.storeRegs 1) ∧
    decodeTableWord 16 0xF165 = some (.loadRegs 1) := by
  decide

theorem test_encode_drops_no_bit :
    encode (.drw 5 0xA 3) = 0xD5A3 ∧ encode (.call 0xABC) = 0x2ABC ∧ encode (.subn 0xA 0xB) = 0x8AB7 ∧
    encode (.shr 0xA) = 0x8A06 ∧ encode (.sneByte 0xF 0x2A) = 0x4F2A ∧ encode (.loadRegs 0xF) = 0xFF65 := by
  decide

/-- Fetch byte order (20_memory.md R42): 12 34 is `JP 234`. -/
theorem test_fetch_order : nextInstr (State.reset.storeBytes 0x200 [0x12, 0x34]) = some (.jp 0x234) := by
  decide

/-! ### One step (95_test_vectors.md part 2) -/

/-- F1. -/
theorem test_jp : stepped (atWord 0x200 0x1234 (State.reset)) (fun t =>
    codeOf t == some 0 &&
    t.pc == 0x234) = true := by decide

/-- F5. -/
theorem test_call : stepped (atWord 0x204 0x220A (State.reset)) (fun t =>
    codeOf t == some 0 &&
    t.pc == 0x20A &&
    t.stack[0] == 0x206 &&
    t.sp.val == 1) = true := by decide

/-- S5, X6. -/
theorem test_call_overflow : stepped (atWord 0x200 0x2300 ({ State.reset with sp := 16 })) (fun t =>
    codeOf t == some 2 &&
    t.pc == 0x202 &&
    t.sp.val == 16 &&
    t.stack == State.reset.stack) = true := by decide

/-- F7. -/
theorem test_ret : stepped (atWord 0x20C 0x00EE ({ State.reset with sp := 1, stack := State.reset.stack.set 0 0x0206 })) (fun t =>
    codeOf t == some 0 &&
    t.pc == 0x206 &&
    t.sp.val == 0 &&
    t.stack[0] == 0x206) = true := by decide

/-- F8, X7. -/
theorem test_ret_underflow : stepped (atWord 0x200 0x00EE (State.reset)) (fun t =>
    codeOf t == some 3 &&
    t.pc == 0x202 &&
    t.sp.val == 0) = true := by decide

/-- F10. -/
theorem test_seByte_taken : stepped (atWord 0x200 0x332A (withRegs [(3, 0x2A)] State.reset)) (fun t =>
    codeOf t == some 0 &&
    t.pc == 0x204) = true := by decide

/-- F12. -/
theorem test_sneByte_not_taken : stepped (atWord 0x200 0x432A (withRegs [(3, 0x2A)] State.reset)) (fun t =>
    codeOf t == some 0 &&
    t.pc == 0x202) = true := by decide

/-- F13. -/
theorem test_sneByte_taken : stepped (atWord 0x200 0x432A (State.reset)) (fun t =>
    codeOf t == some 0 &&
    t.pc == 0x204) = true := by decide

/-- F16. -/
theorem test_seReg_taken : stepped (atWord 0x300 0x5121 (withRegs [(1, 0x07), (2, 0x07)] State.reset)) (fun t =>
    codeOf t == some 0 &&
    t.pc == 0x304) = true := by decide

/-- F15. -/
theorem test_seReg_not_taken : stepped (atWord 0x300 0x5120 (withRegs [(1, 0x07), (2, 0x08)] State.reset)) (fun t =>
    codeOf t == some 0 &&
    t.pc == 0x302) = true := by decide

/-- F18. -/
theorem test_sneReg_taken : stepped (atWord 0x300 0x9120 (withRegs [(1, 0x07), (2, 0x08)] State.reset)) (fun t =>
    codeOf t == some 0 &&
    t.pc == 0x304) = true := by decide

/-- F20. -/
theorem test_sneReg_same_register : stepped (atWord 0x300 0x9110 (State.reset)) (fun t =>
    codeOf t == some 0 &&
    t.pc == 0x302) = true := by decide

/-- F22. -/
theorem test_jpV0_not_reduced : stepped (atWord 0x200 0xBFFF (withRegs [(0, 0xFF)] State.reset)) (fun t =>
    codeOf t == some 0 &&
    t.pc == 0x10FE) = true := by decide

/-- F23. -/
theorem test_jpV0_uses_v0 : stepped (atWord 0x200 0xB3FC (withRegs [(0, 0x04), (3, 0x40)] State.reset)) (fun t =>
    codeOf t == some 0 &&
    t.pc == 0x400) = true := by decide

/-- F26. -/
theorem test_skip_past_memory : stepped (atWord 0xFFE 0x3000 (State.reset)) (fun t =>
    codeOf t == some 0 &&
    t.pc == 0x1002) = true := by decide

/-- A2. -/
theorem test_ldByte_vf : stepped (atWord 0x200 0x6FFF (State.reset)) (fun t =>
    codeOf t == some 0 &&
    t.pc == 0x202 &&
    t.reg vf == 0xFF) = true := by decide

/-- A4. -/
theorem test_addByte_no_flag : stepped (atWord 0x200 0x7101 (withRegs [(1, 0xFF)] State.reset)) (fun t =>
    codeOf t == some 0 &&
    t.pc == 0x202 &&
    t.reg 1 == 0x00 &&
    t.reg vf == 0x00) = true := by decide

/-- A7. -/
theorem test_ldReg : stepped (atWord 0x200 0x8120 (withRegs [(2, 0x77)] State.reset)) (fun t =>
    codeOf t == some 0 &&
    t.pc == 0x202 &&
    t.reg 1 == 0x77 &&
    t.reg 2 == 0x77) = true := by decide

/-- A8. -/
theorem test_or : stepped (atWord 0x200 0x8121 (withRegs [(1, 0xF0), (2, 0x0F), (15, 0x01)] State.reset)) (fun t =>
    codeOf t == some 0 &&
    t.pc == 0x202 &&
    t.reg 1 == 0xFF &&
    t.reg vf == 0x01) = true := by decide

/-- A9. -/
theorem test_and : stepped (atWord 0x200 0x8122 (withRegs [(1, 0xF3), (2, 0x3C), (15, 0x01)] State.reset)) (fun t =>
    codeOf t == some 0 &&
    t.pc == 0x202 &&
    t.reg 1 == 0x30 &&
    t.reg vf == 0x01) = true := by decide

/-- A10. -/
theorem test_xor : stepped (atWord 0x200 0x8123 (withRegs [(1, 0xFF), (2, 0x0F), (15, 0x01)] State.reset)) (fun t =>
    codeOf t == some 0 &&
    t.pc == 0x202 &&
    t.reg 1 == 0xF0 &&
    t.reg vf == 0x01) = true := by decide

/-- A14. -/
theorem test_addReg_no_carry : stepped (atWord 0x200 0x8124 (withRegs [(1, 0x80), (2, 0x7F), (15, 0x01)] State.reset)) (fun t =>
    codeOf t == some 0 &&
    t.pc == 0x202 &&
    t.reg 1 == 0xFF &&
    t.reg vf == 0x00) = true := by decide

/-- A18. -/
theorem test_addReg_result_wins : stepped (atWord 0x200 0x8F14 (withRegs [(15, 0xFF), (1, 0x01)] State.reset)) (fun t =>
    codeOf t == some 0 &&
    t.pc == 0x202 &&
    t.reg vf == 0x00) = true := by decide

/-- A22, S3. -/
theorem test_sub_borrow : stepped (atWord 0x200 0x8125 (withRegs [(1, 0x05), (2, 0x0A), (15, 0x01)] State.reset)) (fun t =>
    codeOf t == some 0 &&
    t.pc == 0x202 &&
    t.reg 1 == 0xFB &&
    t.reg vf == 0x00) = true := by decide

/-- A27. -/
theorem test_sub_old_vf_operand : stepped (atWord 0x200 0x81F5 (withRegs [(1, 0x03), (15, 0x05)] State.reset)) (fun t =>
    codeOf t == some 0 &&
    t.pc == 0x202 &&
    t.reg 1 == 0xFE &&
    t.reg vf == 0x00) = true := by decide

/-- A33. -/
theorem test_shr_in_place : stepped (atWord 0x200 0x8156 (withRegs [(1, 0x05), (5, 0xAA)] State.reset)) (fun t =>
    codeOf t == some 0 &&
    t.pc == 0x202 &&
    t.reg 1 == 0x02 &&
    t.reg 5 == 0xAA &&
    t.reg vf == 0x01) = true := by decide

/-- A37. -/
theorem test_subn_writes_vy : stepped (atWord 0x200 0x8127 (withRegs [(1, 0x0A), (2, 0x03), (15, 0x01)] State.reset)) (fun t =>
    codeOf t == some 0 &&
    t.pc == 0x202 &&
    t.reg 2 == 0xF9 &&
    t.reg 1 == 0x0A &&
    t.reg vf == 0x00) = true := by decide

/-- A40. -/
theorem test_subn_flag_stands : stepped (atWord 0x200 0x8F17 (withRegs [(15, 0x01), (1, 0x05)] State.reset)) (fun t =>
    codeOf t == some 0 &&
    t.pc == 0x202 &&
    t.reg 1 == 0x04 &&
    t.reg vf == 0x01) = true := by decide

/-- A45. -/
theorem test_shl_in_place : stepped (atWord 0x200 0x815E (withRegs [(1, 0x80), (5, 0xAA)] State.reset)) (fun t =>
    codeOf t == some 0 &&
    t.pc == 0x202 &&
    t.reg 1 == 0x00 &&
    t.reg 5 == 0xAA &&
    t.reg vf == 0x01) = true := by decide

/-- A46. -/
theorem test_shl_result_wins : stepped (atWord 0x200 0x8F0E (withRegs [(15, 0x81)] State.reset)) (fun t =>
    codeOf t == some 0 &&
    t.pc == 0x202 &&
    t.reg vf == 0x02) = true := by decide

/-- M2. -/
theorem test_ldI : stepped (atWord 0x200 0xA2F0 (withI 0xFFFF State.reset)) (fun t =>
    codeOf t == some 0 &&
    t.pc == 0x202 &&
    t.i == 0x02F0) = true := by decide

/-- M5. -/
theorem test_addI_wraps : stepped (atWord 0x200 0xF21E (withI 0xFFFF (withRegs [(2, 0x02)] State.reset))) (fun t =>
    codeOf t == some 0 &&
    t.pc == 0x202 &&
    t.i == 0x0001 &&
    t.reg vf == 0x00) = true := by decide

/-- M8. -/
theorem test_ldF_unmasked : stepped (atWord 0x200 0xF029 (withRegs [(0, 0xFF)] State.reset)) (fun t =>
    codeOf t == some 0 &&
    t.pc == 0x202 &&
    t.i == 0x054B) = true := by decide

/-- M9. -/
theorem test_ldB_over_glyph : stepped (atWord 0x200 0xF033 (withI 0x50 (withRegs [(0, 0xEA)] State.reset))) (fun t =>
    codeOf t == some 0 &&
    t.pc == 0x202 &&
    t.mem.readBytes 0x4F 5 == [0x00, 0x02, 0x03, 0x04, 0x90] &&
    t.i == 0x50) = true := by decide

/-- M12. -/
theorem test_ldB_out_of_range : stepped (atWord 0x200 0xF033 (withI 0xFFE (withRegs [(0, 0x7B)] State.reset))) (fun t =>
    codeOf t == some 4 &&
    t.pc == 0x202 &&
    t.mem.readBytes 0xFFE 2 == [0x00, 0x00]) = true := by decide

/-- M13. -/
theorem test_storeRegs : stepped (atWord 0x200 0xF255 (withI 0x400 (withRegs [(0, 0x11), (1, 0x22), (2, 0x33), (3, 0x44)] State.reset))) (fun t =>
    codeOf t == some 0 &&
    t.pc == 0x202 &&
    t.mem.readBytes 0x400 4 == [0x11, 0x22, 0x33, 0x00] &&
    t.i == 0x400) = true := by decide

/-- M16. -/
theorem test_storeRegs_out_of_range : stepped (atWord 0x200 0xFF55 (withI 0xFF1 (withRegs [(0, 0x11)] State.reset))) (fun t =>
    codeOf t == some 4 &&
    t.pc == 0x202 &&
    t.mem.read 0xFF1 == 0x00) = true := by decide

/-- M21. -/
theorem test_loadRegs_glyph : stepped (atWord 0x200 0xF465 (withI 0x50 (withRegs [(5, 0x99)] State.reset))) (fun t =>
    codeOf t == some 0 &&
    t.pc == 0x202 &&
    t.reg 0 == 0xF0 &&
    t.reg 1 == 0x90 &&
    t.reg 4 == 0xF0 &&
    t.reg 5 == 0x99 &&
    t.i == 0x50) = true := by decide

/-- M20. -/
theorem test_loadRegs_out_of_range : stepped (atWord 0x200 0xF165 (withI 0xFFF (withRegs [(1, 0x99)] State.reset))) (fun t =>
    codeOf t == some 4 &&
    t.pc == 0x202 &&
    t.reg 1 == 0x99) = true := by decide

/-- D1. -/
theorem test_cls : stepped (atWord 0x200 0x00E0 ({ State.reset with fb := Framebuffer.clear.set 31 0x1 })) (fun t =>
    codeOf t == some 0 &&
    t.pc == 0x202 &&
    t.fb == Framebuffer.clear &&
    t.draw) = true := by decide

/-- D3, S4. -/
theorem test_drw_wraps : stepped (atWord 0x200 0xD011 (withI 0x300 (withRegs [(0, 0x3C)] (State.reset.storeBytes 0x300 [0xFF])))) (fun t =>
    codeOf t == some 0 &&
    t.pc == 0x202 &&
    t.fb == Framebuffer.clear.set 0 0xF00000000000000F &&
    t.reg vf == 0x00 &&
    t.draw) = true := by decide

/-- D9. -/
theorem test_drw_collision : stepped (atWord 0x200 0xD011 ({ withI 0x300 (State.reset.storeBytes 0x300 [0xC0]) with fb := Framebuffer.clear.set 0 0x1 })) (fun t =>
    codeOf t == some 0 &&
    t.pc == 0x202 &&
    t.fb == Framebuffer.clear.set 0 0x2 &&
    t.reg vf == 0x01) = true := by decide

/-- K1. -/
theorem test_skp_pressed : stepped (atWord 0x200 0xE19E (withKeys [10] (withRegs [(1, 0x0A)] State.reset))) (fun t =>
    codeOf t == some 0 &&
    t.pc == 0x204) = true := by decide

/-- K7. -/
theorem test_skp_not_masked : stepped (atWord 0x200 0xE19E (withKeys [10] (withRegs [(1, 0x1A)] State.reset))) (fun t =>
    codeOf t == some 4 &&
    t.pc == 0x202) = true := by decide

/-- K3. -/
theorem test_sknp_released : stepped (atWord 0x200 0xE1A1 (withKeys [11] (withRegs [(1, 0x0A)] State.reset))) (fun t =>
    codeOf t == some 0 &&
    t.pc == 0x204) = true := by decide

/-- K4. -/
theorem test_sknp_pressed : stepped (atWord 0x200 0xE1A1 (withKeys [10] (withRegs [(1, 0x0A)] State.reset))) (fun t =>
    codeOf t == some 0 &&
    t.pc == 0x202) = true := by decide

/-- K8. -/
theorem test_ldVxDt : stepped (atWord 0x200 0xF207 ({ State.reset with dt := 0x0E })) (fun t =>
    codeOf t == some 0 &&
    t.pc == 0x202 &&
    t.reg 2 == 0x0E &&
    t.dt == 0x0D) = true := by decide

/-- K10. -/
theorem test_ldVxK_waits : stepped (atWord 0x210 0xF30A ({ withRegs [(3, 0x77)] State.reset with dt := 0x05 })) (fun t =>
    codeOf t == some 0 &&
    t.pc == 0x210 &&
    t.reg 3 == 0x77 &&
    t.dt == 0x04) = true := by decide

/-- K11. -/
theorem test_ldVxK_least : stepped (atWord 0x210 0xF30A (withKeys [9, 4] State.reset)) (fun t =>
    codeOf t == some 0 &&
    t.pc == 0x212 &&
    t.reg 3 == 0x04) = true := by decide

/-- K14. -/
theorem test_ldDtVx : stepped (atWord 0x200 0xF115 (withRegs [(1, 0x0F)] State.reset)) (fun t =>
    codeOf t == some 0 &&
    t.pc == 0x202 &&
    t.dt == 0x0E &&
    t.st == 0x00) = true := by decide

/-- K17. -/
theorem test_ldStVx : stepped (atWord 0x200 0xF118 (withRegs [(1, 0x03)] State.reset)) (fun t =>
    codeOf t == some 0 &&
    t.pc == 0x202 &&
    t.st == 0x02 &&
    snd t &&
    t.dt == 0x00) = true := by decide

/-- A48. -/
theorem test_rnd_masked_to_zero : stepped (atWord 0x200 0xC100 (withRegs [(1, 0x55)] State.reset)) (fun t =>
    codeOf t == some 0 &&
    t.pc == 0x202 &&
    t.rndCount == 1) = true := by decide

/-- X1, R184: the timers tick on a failing step. -/
theorem test_decode_error : stepped { State.reset with dt := 0x03, st := 0x02 } (fun t =>
    t.status == some (.decodeError 0x0000 0x0200) && t.pc == 0x202 && t.dt == 0x02 &&
    t.st == 0x01) = true := by decide

/-- X3: a failed fetch leaves PC. -/
theorem test_fetch_fault : stepped { State.reset with pc := 0x0FFF, dt := 0x02 } (fun t =>
    codeOf t == some 4 && t.pc == 0xFFF && t.dt == 0x01) = true := by decide

/-- H2: the tail of the first image stays. -/
theorem test_load_twice :
    (load [0x12] (load [0xA2, 0x0C] State.reset).2).2.mem.readBytes 0x200 2 = [0x12, 0x0C] := by decide

/-- H4. -/
theorem test_draw_consume : drawConsume { State.reset with draw := true } = (true, State.reset) := by
  decide

/-- H5. -/
theorem test_snd : snd { State.reset with st := 0x02 } = true ∧ snd State.reset = false := by decide

/-- S7, H1: what a reset leaves alone is KEY and the model's own count (logs 4 and 5). -/
theorem test_reset : hostReset (atWord 0x300 0x1234 (withRegs [(1, 0x55)] State.reset)) = State.reset := by
  decide

/-! ### The hypotheses of the obligations can be met -/

/-- A state with registers, a stack entry, timers, memory and a pixel that are not their reset
values. -/
def busy : State :=
  { withI 0x0300 (withRegs [(1, 0x0A), (15, 0x01)] (State.reset.storeBytes 0x300 [0xC3, 0x81])) with
    sp := 1, stack := State.reset.stack.set 0 0x0206, dt := 0x05, st := 0x02,
    fb := Framebuffer.clear.set 0 0x1 }

theorem test_witness_DecoderAgreesWithOpcodeTable :
    decodeWord 0x8AB7 = .ok (.subn 0xA 0xB) ∧ legalWord 0xFF65 = true ∧
    (0xE19E : Word) &&& 0xF0FF = 0xE09E ∧ (⟨"SKP_Vx", 0xF0FF, 0xE09E⟩ : OpRow) ∈ opcodeTable :=
  by decide

theorem test_witness_IgnoredBitsAreExactlyTheListed :
    decodeWord 0x5AB7 = .ok (.seReg 0xA 0xB) ∧ decodeWord 0x5AB0 = .ok (.seReg 0xA 0xB) ∧
    decodeWord 0x8ABE = .ok (.shl 0xA) ∧ decodeWord 0x8A0E = .ok (.shl 0xA) :=
  by decide

theorem test_witness_IllegalWordsByGroup :
    (decodeWord 0x00E1 = .error (.group0 0x00E1) ∧ decodeWord 0x8008 = .error (.group8 0x8) ∧
    decodeWord 0x800F = .error (.group8 0xF) ∧ decodeWord 0xE09F = .error (.groupE 0x9F) ∧
    decodeWord 0xF0FF = .error (.groupF 0xFF)) :=
  by decide

theorem test_witness_GroupZeroMatchesAllSixteenBits :
    (fieldC 0x0FFF).toNat = 0 ∧ (0x0FFF : Word) ≠ 0x00E0 ∧ (0x0FFF : Word) ≠ 0x00EE :=
  by decide

theorem test_witness_FetchIsBigEndian :
    ∃ s : State, s.pc.toNat = 0x0FFE ∧ fetchWord s = some 0x6A55 :=
  ⟨atWord 0xFFE 0x6A55 State.reset, by decide⟩

theorem test_witness_ResetStateWhateverCameBefore :
    ∃ s s' : State, s ≠ s' ∧ s'.key = s.key ∧ s'.rndCount = s.rndCount :=
  ⟨busy, State.reset, by decide⟩

theorem test_witness_LoadCopiesTheImageOrRefuses :
    ∃ (s : State) (p q : List Byte), s.mem.wf = true ∧ p.length = 3584 ∧ q.length = 3585 :=
  ⟨busy, List.replicate 3584 0x12, List.replicate 3585 0x12, by decide, List.length_replicate, List.length_replicate⟩

theorem test_witness_LoadWritesOnlyTheImage :
    ∃ (s : State) (p q : List Byte), s.mem.wf = true ∧ p.length ≤ 3584 ∧ q.length = 3584 ∧ p ≠ [] :=
  ⟨busy, [0xA2, 0x0C], List.replicate 3584 0x12, by decide, by decide, List.length_replicate, by decide⟩

theorem test_witness_RedrawFlagIsSetByDisplayAndClearedByHost :
    ∃ s t : State, step s = .next t ∧ s.draw = false ∧ t.draw = true ∧ nextInstr s = some .cls :=
  ⟨atWord 0x200 0x00E0 busy, _, rfl, by decide, by decide, by decide⟩

theorem test_witness_StepRunsTheDecodedInstruction :
    ∃ (s t : State) (i : Instr), s.pc.toNat = 0x0FFE ∧
    decode [s.mem.read s.pc.toNat, s.mem.read (s.pc.toNat + 1)] = .ok (i, []) ∧
    exec i { s with pc := s.pc + 2 } = .next t :=
  ⟨atWord 0xFFE 0x6A55 busy, _, .ldByte 0xA 0x55, by decide, by decide, rfl⟩

theorem test_witness_PlacedWordIsFetchedNext :
    ∃ (s : State) (w : Nat) (i : Instr), s.mem.wf = true ∧ decodeTableWord 16 w = some i ∧
    s.pc.toNat ≤ 0x0FFE :=
  ⟨busy, 0xD125, .drw 1 2 5, by decide⟩

theorem test_witness_EveryStepHasANextState :
    ∃ (s t : State) (i : Instr), nextInstr s = some i ∧ changesPc i = false ∧ step s = .next t :=
  ⟨atWord 0x200 0x8124 busy, _, .addReg 1 2, by decide, by decide, rfl⟩

theorem test_witness_FailingStepWritesNothing_fetch :
    ∃ s t : State, step s = .next t ∧ t.status ≠ some .ok ∧ fetchWord s = none :=
  ⟨busy.jump 0x0FFF, _, rfl, by decide, by decide⟩

theorem test_witness_FailingStepWritesNothing_exec :
    ∃ s t : State, step s = .next t ∧ t.status ≠ some .ok ∧ fetchWord s ≠ none :=
  ⟨atWord 0x200 0xF033 (withI 0x0FFE busy), _, rfl, by decide, by decide⟩

theorem test_witness_FailureCausesAreExhaustive_call :
    ∃ s t : State, exec (.call 0x300) s = .next t ∧ t.status ≠ some .ok ∧ s.sp.val = 16 :=
  ⟨{ busy with sp := 16 }, _, rfl, by decide, by decide⟩

theorem test_witness_FailureCausesAreExhaustive_ret :
    ∃ s t : State, exec (.ret) s = .next t ∧ t.status ≠ some .ok ∧ s.sp.val = 0 :=
  ⟨{ busy with sp := 0 }, _, rfl, by decide, by decide⟩

theorem test_witness_FailureCausesAreExhaustive_ldB :
    ∃ s t : State, exec (.ldB 1) s = .next t ∧ t.status ≠ some .ok ∧ s.i.toNat + 2 = 0x1000 :=
  ⟨withI 0x0FFE busy, _, rfl, by decide, by decide⟩

theorem test_witness_FailureCausesAreExhaustive_storeRegs :
    ∃ s t : State, exec (.storeRegs 3) s = .next t ∧ t.status ≠ some .ok ∧ s.i.toNat + 3 = 0x1000 :=
  ⟨withI 0x0FFD busy, _, rfl, by decide, by decide⟩

theorem test_witness_FailureCausesAreExhaustive_loadRegs :
    ∃ s t : State, exec (.loadRegs 3) s = .next t ∧ t.status ≠ some .ok ∧ s.i.toNat + 3 = 0x1000 :=
  ⟨withI 0x0FFD busy, _, rfl, by decide, by decide⟩

theorem test_witness_FailureCausesAreExhaustive_drw :
    ∃ s t : State, exec (.drw 1 2 1) s = .next t ∧ t.status ≠ some .ok ∧ s.i.toNat + 1 - 1 = 0x1000 :=
  ⟨withI 0x1000 busy, _, rfl, by decide, by decide⟩

theorem test_witness_FailureCausesAreExhaustive_skp :
    ∃ s t : State, exec (.skp 1) s = .next t ∧ t.status ≠ some .ok ∧ (s.reg 1).toNat = 16 :=
  ⟨withRegs [(1, 0x10)] busy, _, rfl, by decide, by decide⟩

theorem test_witness_FailureCausesAreExhaustive_sknp :
    ∃ s t : State, exec (.sknp 1) s = .next t ∧ t.status ≠ some .ok ∧ (s.reg 1).toNat = 16 :=
  ⟨withRegs [(1, 0x10)] busy, _, rfl, by decide, by decide⟩

theorem test_witness_DecodeErrorExactlyForIllegalWords :
    ∃ s t : State, step s = .next t ∧ fetchWord s = some 0x8AB8 ∧ legalWord 0x8AB8 = false :=
  ⟨atWord 0x200 0x8AB8 busy, _, rfl, by decide, by decide⟩

theorem test_witness_StackFailuresLeaveTheStackAlone_call :
    ∃ s : State, nextInstr s = some (.call 0x300) ∧ s.sp = 16 :=
  ⟨atWord 0x200 0x2300 { busy with sp := 16 }, by decide⟩

theorem test_witness_StackFailuresLeaveTheStackAlone_ret :
    ∃ s : State, nextInstr s = some .ret ∧ s.sp = 0 :=
  ⟨atWord 0x200 0x00EE { busy with sp := 0 }, by decide⟩

theorem test_witness_PcAboveMemoryComesOnlyFromThreeSources_fetch :
    ∃ s t : State, s.pc.toNat = 0x0FFF ∧ step s = .next t :=
  ⟨busy.jump 0x0FFF, _, by decide, rfl⟩

theorem test_witness_PcAboveMemoryComesOnlyFromThreeSources_jpV0 :
    ∃ s t : State, s.pc.toNat ≤ 0x0FFE ∧ step s = .next t ∧ t.pc.toNat = 0x10FE :=
  ⟨atWord 0x200 0xBFFF (withRegs [(0, 0xFF)] busy), _, by decide, rfl, by decide⟩

theorem test_witness_PcAboveMemoryComesOnlyFromThreeSources_skip :
    ∃ s t : State, s.pc.toNat = 0x0FFE ∧ step s = .next t ∧ t.pc.toNat = 0x1002 :=
  ⟨atWord 0xFFE 0x3000 busy, _, by decide, rfl, by decide⟩

theorem test_witness_PcAboveMemoryComesOnlyFromThreeSources_ret :
    ∃ s t : State, s.pc.toNat ≤ 0x0FFE ∧ step s = .next t ∧ t.pc.toNat = 0x1000 :=
  ⟨atWord 0x200 0x00EE { busy with stack := busy.stack.set 0 0x1000 }, _, by decide, rfl, by decide⟩

theorem test_witness_TimersCountDownOncePerStep_ldDtVx :
    ∃ s t : State, step s = .next t ∧ nextInstr s = some (.ldDtVx 1) :=
  ⟨atWord 0x200 0xF115 busy, _, rfl, by decide⟩

theorem test_witness_TimersCountDownOncePerStep_ldStVx :
    ∃ s t : State, step s = .next t ∧ nextInstr s = some (.ldStVx 1) :=
  ⟨atWord 0x200 0xF118 busy, _, rfl, by decide⟩

theorem test_witness_TimersCountDownOncePerStep_other :
    ∃ s t : State, step s = .next t ∧ nextInstr s = some (.addReg 1 2) :=
  ⟨atWord 0x200 0x8124 busy, _, rfl, by decide⟩

theorem test_witness_IdleLoopChangesOnlyTheTimers :
    ∃ s : State, s.idle :=
  ⟨atWord 0x200 0x1200 busy, 0x200, by decide, by decide⟩

theorem test_witness_EveryStepKeepsTheInvariant :
    ∃ s t : State, s.Inv ∧ step s = .next t :=
  ⟨atWord 0x200 0xF155 busy, _, ⟨by decide, by decide, by decide⟩, rfl⟩

theorem test_witness_EverySessionKeepsTheInvariant :
    ∃ s : State, s.Inv ∧ s.mem ≠ [] :=
  ⟨busy, ⟨by decide, by decide, by decide⟩, by decide⟩

theorem test_witness_StaleStackEntriesNeverInfluenceExecution :
    ∃ (s t : State) (k : Vector Word 16), (∀ j : Fin 16, j.val < s.sp.val → k[j] = s.stack[j]) ∧
    k ≠ s.stack ∧ Host.Core.run Sys2Proof.core 1 s = .next t :=
  ⟨atWord 0x200 0x00EE busy, _, busy.stack.set 1 0x0999, by decide, by decide, rfl⟩

theorem test_witness_KeypadIsSeenByThreeInstructionsOnly :
    ∃ (i : Instr) (s t u : State), step s = .next u ∧ seesKeys i = false ∧ exec i s = .next t :=
  ⟨.addReg 1 2, atWord 0x200 0x8124 busy, _, _, rfl, by decide, rfl⟩

theorem test_witness_FramebufferIsSeenByDrawOnly :
    ∃ (i : Instr) (s t : State), exec i s = .next t ∧ ∀ x y n, i ≠ .drw x y n :=
  ⟨.addReg 1 2, busy, _, rfl, by decide⟩

theorem test_witness_RegistersChangeOnlyAsDestinationOrFlag :
    ∃ (i : Instr) (s t : State), exec i s = .next t ∧ vf ∉ destRegs i ∧ writesFlag i = false :=
  ⟨.ldByte 1 0x55, busy, _, rfl, by decide, by decide⟩

theorem test_witness_FlagWritersWriteZeroOrOne :
    ∃ (i : Instr) (s t : State), writesFlag i = true ∧ vf ∉ destRegs i ∧ exec i s = .next t ∧
    t.status = some .ok :=
  ⟨.drw 1 2 2, busy, _, by decide, by decide, rfl, by decide⟩

theorem test_witness_SpecialStateHasOnlyItsNamedWriters :
    ∃ (i : Instr) (s t : State), exec i s = .next t ∧ (∀ a, i ≠ .ldI a) ∧ (∀ x, i ≠ .addI x) ∧
    (∀ x, i ≠ .ldF x) ∧ (∀ a, i ≠ .call a) ∧ (∀ x, i ≠ .ldDtVx x) ∧ (∀ x, i ≠ .ldStVx x) ∧
    (∀ x, i ≠ .ldB x) ∧ (∀ x, i ≠ .storeRegs x) ∧ i ≠ .cls ∧ (∀ x y n, i ≠ .drw x y n) ∧
    ∀ x nn, i ≠ .rnd x nn :=
  ⟨.addReg 1 2, busy, _, rfl, by simp⟩

theorem test_witness_StackPointerMovesOnlyByCallAndRet_call :
    ∃ s t : State, exec (.call 0x300) s = .next t ∧ s.sp.val = 15 :=
  ⟨{ busy with sp := 15 }, _, rfl, by decide⟩

theorem test_witness_StackPointerMovesOnlyByCallAndRet_call_full :
    ∃ s t : State, exec (.call 0x300) s = .next t ∧ s.sp.val = 16 :=
  ⟨{ busy with sp := 16 }, _, rfl, by decide⟩

theorem test_witness_StackPointerMovesOnlyByCallAndRet_ret :
    ∃ s t : State, exec (.ret) s = .next t ∧ s.sp.val = 1 :=
  ⟨{ busy with sp := 1 }, _, rfl, by decide⟩

theorem test_witness_StackPointerMovesOnlyByCallAndRet_ret_empty :
    ∃ s t : State, exec (.ret) s = .next t ∧ s.sp.val = 0 :=
  ⟨{ busy with sp := 0 }, _, rfl, by decide⟩

theorem test_witness_StackPointerMovesOnlyByCallAndRet_other :
    ∃ s t : State, exec (.addReg 1 2) s = .next t ∧ s.sp.val = 7 :=
  ⟨{ busy with sp := 7 }, _, rfl, by decide⟩

theorem test_witness_CallPushesTheReturnAddress :
    (∃ s : State, s.sp.val = 15) ∧ ∃ s : State, s.sp.val = 16 :=
  ⟨⟨{ busy with sp := 15 }, rfl⟩, { busy with sp := 16 }, rfl⟩

theorem test_witness_RetRestoresThePoppedAddress :
    (∃ s : State, s.sp.val = 1) ∧ ∃ s : State, s.sp.val = 0 :=
  ⟨⟨busy, rfl⟩, { busy with sp := 0 }, rfl⟩

theorem test_witness_RetResumesAfterItsCall :
    ∃ s t u : State, s.sp.val < 16 ∧ exec (.call 0x300) s = .next t ∧ u.sp = t.sp ∧
    (∀ j : Fin 16, j.val < t.sp.val → u.stack[j] = t.stack[j]) ∧ u ≠ t :=
  ⟨busy, _, { busy with sp := 2, stack := busy.stack.set 1 0x0200 }, by decide, rfl, by decide, by decide, by decide⟩

/-- The hypothesis of the `DecodesTo` clauses, one word for each mask. -/
theorem test_witness_DecodesTo :
    (0x1FFF : Word) &&& 0xF000 = 0x1000 ∧ (0x8AB7 : Word) &&& 0xF00F = 0x8007 ∧
    (0xF165 : Word) &&& 0xF0FF = 0xF065 ∧ (0x00EE : Word) &&& 0xFFFF = 0x00EE :=
  by decide

theorem test_witness_results_with_vf :
    (1 : Reg) ≠ vf ∧ (2 : Reg) ≠ 1 ∧ (2 : Reg) ≠ vf :=
  by decide

/-- The hypotheses of `BcdStoresThreeDigits`, `StoreRegistersWritesTheBlock` and
`LoadRegistersReadsTheBlock`, on both sides of the end of memory. -/
theorem test_witness_blocks :
    ∃ s u : State, s.mem.wf = true ∧ u.mem.wf = true ∧ s.i.toNat = 0x0FFD ∧ u.i.toNat = 0x0FFE ∧
    s.i.toNat + (2 : Reg).val = 0x0FFF ∧ u.i.toNat + (2 : Reg).val = 0x1000 :=
  ⟨withI 0x0FFD busy, withI 0x0FFE busy, by decide⟩

theorem test_witness_StoredRegistersLoadBack :
    ∃ (x : Reg) (s t u : State), s.mem.wf = true ∧ s.i.toNat + x.val = 0x0FFF ∧
    exec (.storeRegs x) s = .next t ∧ u.mem = t.mem ∧ u.i = s.i ∧ (∀ r : Reg, x < r → u.reg r = s.reg r) ∧
    u.reg 1 ≠ s.reg 1 :=
  ⟨2, withI 0x0FFD busy, _, { withRegs [(1, 0x77)] (withI 0x0FFD busy) with mem := busy.mem.writeBytes 0x0FFD [0x00, 0x0A, 0x00] },
    by decide, by decide, rfl, by decide, by decide, by decide, by decide⟩

theorem test_witness_StoreIsSeenByTheNextFetch :
    ∃ (x : Reg) (s t : State) (k : Nat) (pc : Word), s.mem.wf = true ∧ 1 ≤ x.val ∧
    s.i.toNat + x.val = 0x0FFF ∧ exec (.storeRegs x) s = .next t ∧ k + 1 ≤ x.val ∧ pc.toNat = s.i.toNat + k :=
  ⟨1, withI 0x0FFE busy, _, 0, 0x0FFE, by decide, by decide, by decide, rfl, by decide, by decide⟩

theorem test_witness_DrawTogglesTheCoveredPixels :
    ∃ s u : State, s.i.toNat + (15 : Fin 16).val - 1 = 0x0FFF ∧ u.i.toNat + (15 : Fin 16).val - 1 = 0x1000 ∧
    (∃ px py, spriteCovers busy 1 2 2 px py) ∧ ¬ ∀ px py, spriteCovers busy 1 2 2 px py :=
  ⟨withI 0x0FF1 busy, withI 0x0FF2 busy, by decide, by decide,
    ⟨10, 0, 0, by decide, 0, by decide, by unfold spriteBit; decide, by decide, by decide⟩, fun h => by
      obtain ⟨r, hr, c, hc, -, h1, h2⟩ := h 40 0
      have : (busy.reg 1).toNat = 10 := by decide
      simp only [this] at h1
      omega⟩

theorem test_witness_DrawTogglesTheCoveredPixels_no_rows :
    ∃ s t : State, (0 : Fin 16).val = 0 ∧ s.i.toNat = 0x1000 ∧ exec (.drw 1 2 0) s = .next t ∧ t.status = some .ok :=
  ⟨withI 0x1000 busy, _, by decide, by decide, rfl, by decide⟩

theorem test_witness_GlyphAddressIsTheUnmaskedFormula :
    ∃ s : State, (s.reg 1).toNat = 15 ∧ (4 : Nat) < 5 :=
  ⟨withRegs [(1, 0x0F)] busy, by decide⟩

theorem test_witness_DrawingTwiceRestoresTheFramebuffer :
    ∃ s t u : State, (1 : Reg) ≠ vf ∧ (2 : Reg) ≠ vf ∧ s.i.toNat + (2 : Fin 16).val - 1 ≤ 0x0FFF ∧
    exec (.drw 1 2 2) s = .next t ∧ exec (.drw 1 2 2) t = .next u :=
  ⟨busy, _, _, by decide, by decide, by decide, rfl, rfl⟩

theorem test_witness_DrawingTwiceRestoresTheFramebuffer_blank :
    ∃ s : State, ∀ px py, spriteCovers s 1 2 2 px py → s.fb.pixel px py = false :=
  ⟨{ busy with fb := Framebuffer.clear }, fun px py _ => by simp [Framebuffer.pixel, Framebuffer.clear]⟩

theorem test_witness_KeySkipsTestTheSampledLevel :
    (∃ s : State, (s.reg 1).toNat = (15 : Fin 16).val) ∧ ∃ s : State, (s.reg 1).toNat = 16 :=
  ⟨⟨withRegs [(1, 0x0F)] busy, by decide⟩, withRegs [(1, 0x10)] busy, by decide⟩

theorem test_witness_KeyWaitRepeatsOrTakesTheLeastKey :
    (∃ s : State, ∀ k : Fin 16, s.key[k] = false) ∧
    ∃ s : State, s.key[(15 : Fin 16)] = true ∧ ∀ j : Fin 16, j < 15 → s.key[j] = false :=
  ⟨⟨busy, by decide⟩, withKeys [15] busy, by decide⟩

theorem test_witness_TimerInstructionsMoveOneByte_ldVxDt :
    ∃ s t : State, step s = .next t ∧ nextInstr s = some (.ldVxDt 1) :=
  ⟨atWord 0x200 0xF107 busy, _, rfl, by decide⟩

theorem test_witness_TimerInstructionsMoveOneByte_ldDtVx :
    ∃ s t : State, step s = .next t ∧ nextInstr s = some (.ldDtVx 1) :=
  ⟨atWord 0x200 0xF115 busy, _, rfl, by decide⟩

theorem test_witness_TimerInstructionsMoveOneByte_ldStVx :
    ∃ s t : State, step s = .next t ∧ nextInstr s = some (.ldStVx 1) :=
  ⟨atWord 0x200 0xF118 busy, _, rfl, by decide⟩

end Sys2Proof.Tests
end

namespace Sys2Proof.Machine

/-! ### CALL and RET, one equation per case (40_control_flow.md R80, R82) -/

theorem exec_call_of_lt {s : State} (addr : BitVec 12) (h : s.sp.val < 16) :
    exec (.call addr) s = .next { s with
      pc := zext16 addr, sp := ⟨s.sp.val + 1, by omega⟩, stack := s.stack.set s.sp.val s.pc,
      status := some .ok } := by
  change execCall addr s = _
  rw [execCall, s.push_of_lt h]
  rfl

theorem exec_call_of_full {s : State} (addr : BitVec 12) (h : s.sp.val = 16) :
    exec (.call addr) s = .next { s with status := some (.stackOverflow (s.pc - 2)) } := by
  change execCall addr s = _
  rw [execCall, s.push_of_full (by omega)]
  rfl

theorem exec_ret_of_pos {s : State} (h : 0 < s.sp.val) :
    exec .ret s = .next { s with
      pc := s.stack[s.sp.val - 1]'(by omega), sp := ⟨s.sp.val - 1, by omega⟩,
      status := some .ok } := by
  change execRet s = _
  rw [execRet, s.pop_of_pos h]
  rfl

theorem exec_ret_of_empty {s : State} (h : s.sp.val = 0) :
    exec .ret s = .next { s with status := some (.stackUnderflow (s.pc - 2)) } := by
  change execRet s = _
  rw [execRet, s.pop_of_empty h]
  rfl

/-! ### An update of the state that an operation does not see

An instruction neither reads nor writes what `u` overwrites where updating the state before it and
updating its result come to the same: `exec i (u s) = mapNext u (exec i s)`. -/

/-- `u` applied to the next state, if there is one. -/
def mapNext (u : State → State) : StepResult → StepResult
  | .next t => .next (u t)
  | .fault r => .fault r
  | .refused r => .refused r

@[simp] theorem mapNext_next (u : State → State) (t : State) :
    mapNext u (.next t) = .next (u t) := rfl

/-- A range check sees no update that neither its continuation nor the report of its failure
sees. -/
theorem withinMemory_mapNext (u : State → State) (s : State)
    (hraise : ∀ cause, raise cause (u s) = mapNext u (raise cause s))
    {base count : Nat} {body body' : StepResult} (hbody : body' = mapNext u body) :
    withinMemory (u s) base count body' = mapNext u (withinMemory s base count body) := by
  by_cases h : count = 0 ∨ base + count ≤ 4096
  · rw [withinMemory_of_le _ _ h, withinMemory_of_le _ _ h, hbody]
  · rw [withinMemory_of_gt _ _ (by omega) (by omega), withinMemory_of_gt _ _ (by omega) (by omega),
      hraise]

/-- A read of a key by number sees no update that leaves the key levels alone and that neither its
continuation nor the report of its failure sees. -/
theorem withKey_mapNext (u : State → State) (s : State) (hkey : (u s).key = s.key)
    (hraise : ∀ cause, raise cause (u s) = mapNext u (raise cause s))
    {k : Byte} {body body' : Bool → StepResult} (hbody : ∀ b, body' b = mapNext u (body b)) :
    withKey (u s) k body' = mapNext u (withKey s k body) := by
  by_cases h : k.toNat < 16
  · rw [withKey_of_lt _ _ h, withKey_of_lt _ _ h, hbody, hkey]
  · rw [withKey_of_ge _ _ (by omega), withKey_of_ge _ _ (by omega), hraise]

/-! ### The stack pointer (10_state.md R19) -/

/-- SP <- q, nothing else. -/
def State.setSp (s : State) (q : Fin 17) : State := { s with sp := q }

@[simp] theorem State.setSp_sp (s : State) (q : Fin 17) : (s.setSp q).sp = q := rfl

@[simp] theorem State.setSp_self (s : State) : s.setSp s.sp = s := rfl

theorem raise_setSp (s : State) (q : Fin 17) (cause : Word → Status) :
    raise cause (s.setSp q) = mapNext (·.setSp q) (raise cause s) := rfl

theorem finish_skipIf_setSp (s : State) (q : Fin 17) (b : Bool) :
    finish ((s.setSp q).skipIf b) = mapNext (·.setSp q) (finish (s.skipIf b)) := by
  cases b <;> rfl

theorem execLdVxK_setSp (x : Reg) (s : State) (q : Fin 17) :
    execLdVxK x (s.setSp q) = mapNext (·.setSp q) (execLdVxK x s) := by
  have hkey : (s.setSp q).key = s.key := rfl
  rw [execLdVxK, execLdVxK, hkey]
  cases firstPressed s.key <;> rfl

/-- Only CALL and RET see SP. -/
theorem exec_setSp {i : Instr} (hcall : ∀ a, i ≠ .call a) (hret : i ≠ .ret) (s : State)
    (q : Fin 17) : exec i (s.setSp q) = mapNext (·.setSp q) (exec i s) := by
  cases i with
  | call a => exact absurd rfl (hcall a)
  | ret => exact absurd rfl hret
  | seByte | sneByte | seReg | sneReg => exact finish_skipIf_setSp s q _
  | skp => exact withKey_mapNext _ s rfl (raise_setSp s q) fun b => finish_skipIf_setSp s q b
  | sknp => exact withKey_mapNext _ s rfl (raise_setSp s q) fun b => finish_skipIf_setSp s q !b
  | drw | ldB | storeRegs | loadRegs =>
    exact withinMemory_mapNext (·.setSp q) s (raise_setSp s q) rfl
  | ldVxK x => exact execLdVxK_setSp x s q
  | cls | jp | jpV0 | ldByte | addByte | ldReg | or | and | xor | addReg | sub | shr | subn | shl
  | rnd | ldI | addI | ldF | ldVxDt | ldDtVx | ldStVx => rfl

/-- Only CALL and RET move SP: an instruction that does not see SP cannot change it either, since
giving SP the value it has is no change. -/
theorem exec_keeps_sp {i : Instr} (hcall : ∀ a, i ≠ .call a) (hret : i ≠ .ret) {s t : State}
    (h : exec i s = .next t) : t.sp = s.sp := by
  have hself := exec_setSp hcall hret s s.sp
  rw [State.setSp_self, h, mapNext_next, Host.Outcome.next.injEq] at hself
  rw [hself, State.setSp_sp]

/-- Settles O32: CALL and RET by their equations, every other instruction because it does not see
SP. -/
theorem stackPointerMovesOnlyByCallAndRet : Obligations.StackPointerMovesOnlyByCallAndRet := by
  refine ⟨rfl, fun i s t h => ⟨Fin.is_le t.sp, fun hcall hret => ⟨exec_keeps_sp hcall hret h, ?_⟩,
    ?_, ?_, ?_, ?_⟩⟩
  · intro q
    have hq := exec_setSp hcall hret s q
    rwa [h] at hq
  · rintro a rfl hlt
    rw [exec_call_of_lt a hlt] at h
    cases h
    exact ⟨rfl, fun j hj => by simp [hj]⟩
  · rintro a rfl hfull
    rw [exec_call_of_full a hfull] at h
    cases h
    rfl
  · rintro rfl hpos
    rw [exec_ret_of_pos hpos] at h
    cases h
    exact ⟨Nat.sub_add_cancel hpos, fun j hj => by simp [hj]⟩
  · rintro rfl hempty
    rw [exec_ret_of_empty hempty] at h
    cases h
    rfl

end Sys2Proof.Machine

namespace Sys2Proof.Machine

/-! ### Fetch (20_memory.md R42) -/

/-- Settles O7: the fetch joins the bytes at PC and PC + 1, and joining is base 256 with the first
byte high. -/
theorem fetchIsBigEndian : Obligations.FetchIsBigEndian := fun s hpc =>
  ⟨_, fetchWord_of_le s hpc, joinBytes_toNat _ _⟩

end Sys2Proof.Machine

namespace Sys2Proof.Machine

/-! ### The fields of an instruction word (30_encoding.md R61) -/

/-- Settles O8: each field of a word is a quotient and remainder of the word's number. For the word
of two fetched bytes that number is `hi * 256 + lo` with `lo < 256`, so the quotients by 4096 and 256
see the high byte only and the remainders by 16 and 256 the low byte only. -/
theorem fieldsOfAnInstructionWord : Obligations.FieldsOfAnInstructionWord := by
  refine ⟨fun w => ⟨fieldC_toNat w, fieldX_val w, fieldY_val w, fieldN_toNat w, fieldNN_toNat w,
    fieldNNN_toNat w⟩, fun hi lo => ?_⟩
  have hword := joinBytes_toNat hi lo
  have hlo : lo.toNat < 256 := lo.isLt
  refine ⟨?_, ?_, ?_, ?_, fieldNN_eq hword, ?_⟩
  · rw [fieldC_toNat, hword]
    omega
  · rw [fieldX_val, hword]
    omega
  · rw [fieldY_val, hword]
    omega
  · rw [fieldN_toNat, hword]
    omega
  · rw [fieldNNN_toNat, hword]
    omega

end Sys2Proof.Machine

namespace Sys2Proof.Machine

/-! ### The rows of the opcode table that fix C alone (30_encoding.md R64, R73) -/

/-- The decoder on a row of mask F000: what it gives where the field C is the row's first nibble. -/
theorem decodesTo_of_fieldC {c : Nat} {f : Word → Instr} (hc : c < 16)
    (h : ∀ w, (fieldC w).toNat = c → decodeWord w = .ok (f w)) :
    DecodesTo 0xF000 (BitVec.ofNat 16 (c * 4096)) f :=
  fun w hw => h w (fieldC_of_and_F000 hc hw)

theorem jp_decodesTo : DecodesTo 0xF000 0x1000 fun w => .jp (fieldNNN w) :=
  decodesTo_of_fieldC (c := 0x1) (by decide) fun w hC => by simp only [decodeWord, hC]

theorem call_decodesTo : DecodesTo 0xF000 0x2000 fun w => .call (fieldNNN w) :=
  decodesTo_of_fieldC (c := 0x2) (by decide) fun w hC => by simp only [decodeWord, hC]

theorem seByte_decodesTo : DecodesTo 0xF000 0x3000 fun w => .seByte (fieldX w) (fieldNN w) :=
  decodesTo_of_fieldC (c := 0x3) (by decide) fun w hC => by simp only [decodeWord, hC]

theorem sneByte_decodesTo : DecodesTo 0xF000 0x4000 fun w => .sneByte (fieldX w) (fieldNN w) :=
  decodesTo_of_fieldC (c := 0x4) (by decide) fun w hC => by simp only [decodeWord, hC]

theorem jpV0_decodesTo : DecodesTo 0xF000 0xB000 fun w => .jpV0 (fieldNNN w) :=
  decodesTo_of_fieldC (c := 0xB) (by decide) fun w hC => by simp only [decodeWord, hC]

/-- The row of RET holds one word, since its mask keeps all sixteen bits (R72). -/
theorem ret_decodesTo : DecodesTo 0xFFFF 0x00EE fun _ => .ret := by
  intro w hw
  have hall : w &&& 0xFFFF = w := BitVec.and_allOnes
  rw [hall] at hw
  subst hw
  rfl

/-! ### Jumps (40_control_flow.md R81, R87) -/

theorem zext16_toNat {n : Nat} (hn : n ≤ 16) (b : BitVec n) : (zext16 b).toNat = b.toNat :=
  BitVec.toNat_setWidth_of_le hn

theorem exec_jp (addr : BitVec 12) (s : State) :
    exec (.jp addr) s = .next { s with pc := zext16 addr, status := some .ok } := rfl

theorem exec_jpV0 (addr : BitVec 12) (s : State) :
    exec (.jpV0 addr) s =
      .next { s with pc := zext16 addr + zext16 (s.reg v0), status := some .ok } := rfl

/-- The target of JP V0 is the sum itself: 0x0FFF + 0xFF is far below 2^16. -/
theorem jpV0_target_toNat (addr : BitVec 12) (b : Byte) :
    (zext16 addr + zext16 b).toNat = addr.toNat + b.toNat := by
  have haddr := addr.isLt
  have hb := b.isLt
  rw [BitVec.toNat_add, zext16_toNat (by decide), zext16_toNat (by decide)]
  omega

/-- Settles O33: both jumps put their target in PC, and the zero extensions lose nothing. -/
theorem jumpsSetPcToTheirTarget : Obligations.JumpsSetPcToTheirTarget :=
  ⟨jp_decodesTo, jpV0_decodesTo, fun addr s =>
    ⟨⟨_, exec_jp addr s, rfl, zext16_toNat (by decide) addr⟩,
      ⟨_, exec_jpV0 addr s, rfl, jpV0_target_toNat addr (s.reg v0)⟩⟩⟩

/-! ### CALL and RET (40_control_flow.md R80, R82) -/

/-- Reading the stack after a push. -/
theorem stack_set_getElem (stack : Vector Word 16) (w : Word) {k : Nat} (hk : k < 16) (j : Fin 16) :
    (stack.set k w)[j] = if j.val = k then w else stack[j] := by
  simp [Vector.getElem_set, eq_comm]

/-- Settles O34, by the two equations of CALL. -/
theorem callPushesTheReturnAddress : Obligations.CallPushesTheReturnAddress :=
  ⟨call_decodesTo, fun addr s =>
    ⟨fun hlt => ⟨_, exec_call_of_lt addr hlt, rfl, zext16_toNat (by decide) addr, rfl,
      stack_set_getElem s.stack s.pc hlt⟩, exec_call_of_full addr⟩⟩

/-- Settles O35, by the two equations of RET. -/
theorem retRestoresThePoppedAddress : Obligations.RetRestoresThePoppedAddress := by
  refine ⟨ret_decodesTo, fun s => ⟨fun hpos => ⟨_, exec_ret_of_pos hpos, rfl,
    Nat.sub_add_cancel hpos, fun j hj => ?_⟩, exec_ret_of_empty⟩⟩
  simp [hj]

/-! ### Skips (40_control_flow.md R83, R84) -/

theorem finish_skipIf (s : State) (b : Bool) :
    finish (s.skipIf b) =
      .next { s with pc := if b then s.pc + 2 else s.pc, status := some .ok } := by
  cases b <;> rfl

/-- A skip on equality adds 2 where the operands are equal. -/
theorem finish_skipIf_beq (s : State) (a b : Byte) :
    finish (s.skipIf (a == b)) =
      .next { s with pc := if a = b then s.pc + 2 else s.pc, status := some .ok } := by
  simp [finish_skipIf]

/-- A skip on difference adds 2 where the operands differ. -/
theorem finish_skipIf_bne (s : State) (a b : Byte) :
    finish (s.skipIf (a != b)) =
      .next { s with pc := if a = b then s.pc else s.pc + 2, status := some .ok } := by
  by_cases h : a = b <;> simp [finish_skipIf, h]

/-- Settles O37: the two instructions are the skip on equality and the skip on difference of Vx and
the immediate. -/
theorem byteSkipsCompareWithTheImmediate : Obligations.ByteSkipsCompareWithTheImmediate :=
  ⟨seByte_decodesTo, sneByte_decodesTo, fun x nn s =>
    ⟨finish_skipIf_beq s (s.reg x) nn, finish_skipIf_bne s (s.reg x) nn⟩⟩

end Sys2Proof.Machine

namespace Sys2Proof.Machine

/-! ### The rows of group 8 (30_encoding.md R66, R73) -/

/-- The decoder on a row of group 8: what it gives where the selector N is the row's last nibble. -/
theorem decodesTo_of_fieldN {n : Nat} {f : Word → Instr} (hn : n < 16)
    (h : ∀ w, (fieldN w).toNat = n → decodeGroup8 w = .ok (f w)) :
    DecodesTo 0xF00F (BitVec.ofNat 16 (0x8000 + n)) f := by
  intro w hw
  obtain ⟨hC, hN⟩ := fields_of_and_F00F hn hw
  simp only [decodeWord, hC]
  exact h w hN

theorem ldByte_decodesTo : DecodesTo 0xF000 0x6000 fun w => .ldByte (fieldX w) (fieldNN w) :=
  decodesTo_of_fieldC (c := 0x6) (by decide) fun w hC => by simp only [decodeWord, hC]

theorem addByte_decodesTo : DecodesTo 0xF000 0x7000 fun w => .addByte (fieldX w) (fieldNN w) :=
  decodesTo_of_fieldC (c := 0x7) (by decide) fun w hC => by simp only [decodeWord, hC]

theorem ldReg_decodesTo : DecodesTo 0xF00F 0x8000 fun w => .ldReg (fieldX w) (fieldY w) :=
  decodesTo_of_fieldN (n := 0x0) (by decide) fun w hN => by simp only [decodeGroup8, hN]

theorem or_decodesTo : DecodesTo 0xF00F 0x8001 fun w => .or (fieldX w) (fieldY w) :=
  decodesTo_of_fieldN (n := 0x1) (by decide) fun w hN => by simp only [decodeGroup8, hN]

theorem and_decodesTo : DecodesTo 0xF00F 0x8002 fun w => .and (fieldX w) (fieldY w) :=
  decodesTo_of_fieldN (n := 0x2) (by decide) fun w hN => by simp only [decodeGroup8, hN]

theorem xor_decodesTo : DecodesTo 0xF00F 0x8003 fun w => .xor (fieldX w) (fieldY w) :=
  decodesTo_of_fieldN (n := 0x3) (by decide) fun w hN => by simp only [decodeGroup8, hN]

/-! ### Writing one register and no flag (41_alu.md R100 to R105) -/

/-- A register reads the same after the status is reported. -/
@[simp] theorem State.reg_report (s : State) (r : Status) (x : Reg) :
    (s.report r).reg x = s.reg x :=
  State.reg_congr (State.report_v s r) x

/-- An instruction that ends by writing `b` to `Vx` returns OK, leaves in `Vx` whatever holds of `b`,
and changes no other register, VF included, and nothing else. -/
theorem finish_setReg (s : State) (x : Reg) {b : Byte} (P : Byte → Prop) (hb : P b) :
    ∃ t, finish (s.setReg x b) = .next t ∧ t = { s with v := t.v, status := some .ok } ∧
      P (t.reg x) ∧ ∀ r, r ≠ x → t.reg r = s.reg r := by
  refine ⟨_, finish_eq _, rfl, ?_, fun r hr => ?_⟩
  · rwa [State.reg_report, State.reg_setReg_self]
  · rw [State.reg_report, State.reg_setReg_ne s b hr]

/-- Settles O39: each of the three instructions ends by writing Vx, and the sum of two bytes is their
sum modulo 256. -/
theorem loadsAndImmediateAddWriteVxOnly : Obligations.LoadsAndImmediateAddWriteVxOnly :=
  ⟨ldByte_decodesTo, addByte_decodesTo, ldReg_decodesTo, fun x y nn s =>
    ⟨finish_setReg s x (· = nn) rfl,
      finish_setReg s x (·.toNat = ((s.reg x).toNat + nn.toNat) % 256) (BitVec.toNat_add _ _),
      finish_setReg s x (· = s.reg y) rfl⟩⟩

/-- Settles O40: each of the three instructions ends by writing Vx, and bit `k` of a bitwise
operation is the operation on the bits `k`. -/
theorem logicIsBitwiseAndLeavesVfAlone : Obligations.LogicIsBitwiseAndLeavesVfAlone :=
  ⟨or_decodesTo, and_decodesTo, xor_decodesTo, fun x y s =>
    ⟨finish_setReg s x
        (fun b => ∀ k < 8, b.getLsbD k = ((s.reg x).getLsbD k || (s.reg y).getLsbD k))
        fun _ _ => BitVec.getLsbD_or,
      finish_setReg s x
        (fun b => ∀ k < 8, b.getLsbD k = ((s.reg x).getLsbD k && (s.reg y).getLsbD k))
        fun _ _ => BitVec.getLsbD_and,
      finish_setReg s x
        (fun b => ∀ k < 8, b.getLsbD k = Bool.xor ((s.reg x).getLsbD k) ((s.reg y).getLsbD k))
        fun _ _ => BitVec.getLsbD_xor⟩⟩

end Sys2Proof.Machine

namespace Sys2Proof.Machine

/-! ### The rows of group F (30_encoding.md R68, R73) -/

/-- The decoder on a row of group F: what it gives where the selector NN is the row's last byte. -/
theorem decodesTo_of_groupF {nn : Byte} {f : Word → Instr}
    (h : ∀ w, fieldNN w = nn → decodeGroupF w = .ok (f w)) :
    DecodesTo 0xF0FF (BitVec.ofNat 16 (0xF000 + nn.toNat)) f := by
  intro w hw
  obtain ⟨hC, hNN⟩ := fields_of_and_F0FF (c := 0xF) (by decide) hw
  simp only [decodeWord, hC]
  exact h w hNN

theorem ldI_decodesTo : DecodesTo 0xF000 0xA000 fun w => .ldI (fieldNNN w) :=
  decodesTo_of_fieldC (c := 0xA) (by decide) fun w hC => by simp only [decodeWord, hC]

theorem addI_decodesTo : DecodesTo 0xF0FF 0xF01E fun w => .addI (fieldX w) :=
  decodesTo_of_groupF (nn := 0x1E) fun w hNN => by simp [decodeGroupF, hNN]

/-! ### Writing I and nothing else (42_index_memory.md R120, R121) -/

/-- An instruction that ends by writing `w` to I returns OK, leaves in I whatever holds of `w`, and
changes nothing else, VF included. -/
theorem finish_setI (s : State) {w : Word} (P : Word → Prop) (hw : P w) :
    ∃ t, finish (s.setI w) = .next t ∧ t = { s with i := t.i, status := some .ok } ∧ P t.i :=
  ⟨_, finish_eq _, rfl, hw⟩

/-- ADD I wraps at 16 bits, since the zero extension of Vx loses nothing and words add modulo
65536. -/
theorem word_add_zext16_toNat (w : Word) (b : Byte) :
    (w + zext16 b).toNat = (w.toNat + b.toNat) % 65536 := by
  rw [BitVec.toNat_add, zext16_toNat (by decide)]

/-- Settles O45: both instructions end by writing I, the one NNN zero-extended, the other the sum
modulo 65536. -/
theorem indexInstructionsWriteIOnly : Obligations.IndexInstructionsWriteIOnly :=
  ⟨ldI_decodesTo, addI_decodesTo, fun addr x s =>
    ⟨finish_setI s (·.toNat = addr.toNat) (zext16_toNat (by decide) addr),
      finish_setI s (·.toNat = (s.i.toNat + (s.reg x).toNat) % 65536)
        (word_add_zext16_toNat s.i (s.reg x))⟩⟩

end Sys2Proof.Machine

namespace Sys2Proof.Machine

/-! ### CLS (43_display.md R140) -/

/-- The decoder on a row whose mask keeps all sixteen bits: the row holds its pattern alone (R72). -/
theorem decodesTo_of_allBits {pattern : Word} {i : Instr} (h : decodeWord pattern = .ok i) :
    DecodesTo 0xFFFF pattern fun _ => i := by
  intro w hw
  have hall : w &&& 0xFFFF = w := BitVec.and_allOnes
  rwa [← hall, hw]

theorem cls_decodesTo : DecodesTo 0xFFFF 0x00E0 fun _ => .cls :=
  decodesTo_of_allBits rfl

theorem exec_cls (s : State) :
    exec .cls s = .next { s with fb := Framebuffer.clear, draw := true, status := some .ok } := rfl

/-- Every pixel number reads 0 in a clear framebuffer. -/
theorem fbRead_of_fb_clear {t : State} (h : t.fb = Framebuffer.clear) (p : Fin 2048) :
    fbRead p t = false := by
  rw [fbRead, h, Framebuffer.pixel_clear]

/-- Settles O52: CLS puts the clear framebuffer in FB, and all its pixels read 0. -/
theorem clsZeroesEveryPixel : Obligations.ClsZeroesEveryPixel :=
  ⟨cls_decodesTo, fun s => ⟨_, exec_cls s, rfl, fbRead_of_fb_clear rfl⟩⟩

end Sys2Proof.Machine

namespace Sys2Proof.Machine

/-! ### LD Vx, K (44_keypad_timers.md R153) -/

theorem ldVxK_decodesTo : DecodesTo 0xF0FF 0xF00A fun w => .ldVxK (fieldX w) :=
  decodesTo_of_groupF (nn := 0x0A) fun w hNN => by simp [decodeGroupF, hNN]

/-- The search finds a pressed key that has no pressed key below it: what it finds can be neither
above that key nor below it. -/
theorem firstPressed_of_least {key : Vector Bool 16} {k : Fin 16} (hk : key[k] = true)
    (hbelow : ∀ j : Fin 16, j < k → key[j] = false) : firstPressed key = some k := by
  cases hfound : firstPressed key with
  | none => simp [firstPressed_none.1 hfound k] at hk
  | some j =>
    obtain ⟨hj, hjbelow⟩ := firstPressed_some hfound
    rcases lt_trichotomy j k with hlt | rfl | hgt
    · simp [hbelow j hlt] at hj
    · rfl
    · simp [hjbelow k hgt] at hk

theorem exec_ldVxK_of_none (x : Reg) {s : State} (h : firstPressed s.key = none) :
    exec (.ldVxK x) s = .next { s with pc := s.pc - 2, status := some .ok } := by
  change execLdVxK x s = _
  rw [execLdVxK, h]
  rfl

theorem exec_ldVxK_of_some (x : Reg) {s : State} {k : Fin 16} (h : firstPressed s.key = some k) :
    exec (.ldVxK x) s = finish (s.setReg x (BitVec.ofNat 8 k.val)) := by
  change execLdVxK x s = _
  rw [execLdVxK, h]

/-- A key number fits in a byte. -/
theorem keyByte_toNat (k : Fin 16) : (BitVec.ofNat 8 k.val).toNat = k.val :=
  Nat.mod_eq_of_lt (by omega)

/-- Settles O56: the search for a pressed key finds none, and PC goes back, or finds the least one,
and the instruction ends by writing its number to Vx. -/
theorem keyWaitRepeatsOrTakesTheLeastKey : Obligations.KeyWaitRepeatsOrTakesTheLeastKey := by
  refine ⟨ldVxK_decodesTo, fun x s => ⟨fun hnone => ?_, fun k hk hbelow => ?_⟩⟩
  · exact exec_ldVxK_of_none x (firstPressed_none.2 hnone)
  · rw [exec_ldVxK_of_some x (firstPressed_of_least hk hbelow)]
    exact finish_setReg s x (·.toNat = k.val) (keyByte_toNat k)

/-! ### The timer instructions (44_keypad_timers.md R152, R154, R155) -/

theorem ldVxDt_decodesTo : DecodesTo 0xF0FF 0xF007 fun w => .ldVxDt (fieldX w) :=
  decodesTo_of_groupF (nn := 0x07) fun w hNN => by simp [decodeGroupF, hNN]

theorem ldDtVx_decodesTo : DecodesTo 0xF0FF 0xF015 fun w => .ldDtVx (fieldX w) :=
  decodesTo_of_groupF (nn := 0x15) fun w hNN => by simp [decodeGroupF, hNN]

theorem ldStVx_decodesTo : DecodesTo 0xF0FF 0xF018 fun w => .ldStVx (fieldX w) :=
  decodesTo_of_groupF (nn := 0x18) fun w hNN => by simp [decodeGroupF, hNN]

theorem exec_ldVxDt (x : Reg) (s : State) :
    exec (.ldVxDt x) s = .next ((s.setReg x s.dt).report .ok) := rfl

theorem exec_ldDtVx (x : Reg) (s : State) :
    exec (.ldDtVx x) s = .next { s with dt := s.reg x, status := some .ok } := rfl

theorem exec_ldStVx (x : Reg) (s : State) :
    exec (.ldStVx x) s = .next { s with st := s.reg x, status := some .ok } := rfl

/-- A step whose instruction executes to `u` ends in `u` after the timer pass (60_exceptions.md
R170). -/
theorem step_eq_timerPass {s t u : State} {i : Instr} (hstep : step s = .next t)
    (hi : nextInstr s = some i) (hu : exec i s.advance = .next u) : t = u.timerPass := by
  rw [step_of_nextInstr hi, hu] at hstep
  cases hstep
  rfl

@[simp] theorem State.reg_timerPass (s : State) (r : Reg) : s.timerPass.reg r = s.reg r :=
  State.reg_congr (State.timerPass_v s) r

/-- The sound output after the timer pass (60_exceptions.md R185): a sound timer of 1 is already
silent. -/
theorem snd_timerPass (s : State) : snd s.timerPass = true ↔ 1 < s.st.toNat := by
  rw [snd, decide_eq_true_iff, BitVec.lt_def, State.timerPass_st, tick_toNat]
  exact Nat.sub_pos_iff_lt

theorem step_ldVxDt {x : Reg} {s t : State} (hstep : step s = .next t)
    (hi : nextInstr s = some (.ldVxDt x)) : t.reg x = s.dt ∧ t.dt.toNat = s.dt.toNat - 1 := by
  obtain rfl := step_eq_timerPass hstep hi (exec_ldVxDt x s.advance)
  exact ⟨by simp, tick_toNat s.dt⟩

theorem step_ldDtVx {x : Reg} {s t : State} (hstep : step s = .next t)
    (hi : nextInstr s = some (.ldDtVx x)) : t.dt.toNat = (s.reg x).toNat - 1 := by
  obtain rfl := step_eq_timerPass hstep hi (exec_ldDtVx x s.advance)
  exact tick_toNat (s.reg x)

theorem step_ldStVx {x : Reg} {s t : State} (hstep : step s = .next t)
    (hi : nextInstr s = some (.ldStVx x)) :
    t.st.toNat = (s.reg x).toNat - 1 ∧ (snd t = true ↔ (s.reg x).toNat > 1) := by
  obtain rfl := step_eq_timerPass hstep hi (exec_ldStVx x s.advance)
  exact ⟨tick_toNat (s.reg x), snd_timerPass _⟩

/-- Settles O57: each instruction moves its byte, and the timer pass of the step then lowers the
timer by one. -/
theorem timerInstructionsMoveOneByte : Obligations.TimerInstructionsMoveOneByte :=
  ⟨ldVxDt_decodesTo, ldDtVx_decodesTo, ldStVx_decodesTo,
    fun x s => ⟨finish_setReg s x (· = s.dt) rfl, ⟨_, exec_ldDtVx x s, rfl⟩,
      ⟨_, exec_ldStVx x s, rfl⟩⟩,
    fun _ _ _ hstep => ⟨step_ldVxDt hstep, step_ldDtVx hstep, step_ldStVx hstep⟩⟩

end Sys2Proof.Machine

namespace Sys2Proof.Machine

/-! ### The redraw flag (60_exceptions.md R187)

Every instruction but CLS and DRW ends in a state that the operations shared by the instructions
built, and none of those touches the display. -/

/-- The framebuffer and the redraw flag of `s` are those of `t`. -/
structure SameDisplay (s t : State) : Prop where
  fb : t.fb = s.fb
  draw : t.draw = s.draw

/-- An instruction that ends in `u` keeps the display of `s` where `u` has it. -/
theorem sameDisplay_of_finish {s t u : State} (h : finish u = .next t) (hfb : u.fb = s.fb)
    (hdraw : u.draw = s.draw) : SameDisplay s t := by
  rw [finish_eq] at h
  cases h
  exact ⟨hfb, hdraw⟩

theorem sameDisplay_of_finish_skipIf {s t : State} {b : Bool}
    (h : finish (s.skipIf b) = .next t) : SameDisplay s t :=
  sameDisplay_of_finish h (s.skipIf_fb b) (s.skipIf_draw b)

/-- A range-checked access keeps the display where its continuation does. -/
theorem sameDisplay_of_withinMemory {s t : State} {base count : Nat} {body : StepResult}
    (h : withinMemory s base count body = .next t) (hbody : body = .next t → SameDisplay s t) :
    SameDisplay s t := by
  obtain ⟨-, hok⟩ | ⟨-, -, rfl⟩ := withinMemory_cases h
  · exact hbody hok
  · exact ⟨s.report_fb _, s.report_draw _⟩

/-- A read of a key by number keeps the display where its continuation does. -/
theorem sameDisplay_of_withKey {s t : State} {k : Byte} {body : Bool → StepResult}
    (h : withKey s k body = .next t) (hbody : ∀ b, body b = .next t → SameDisplay s t) :
    SameDisplay s t := by
  obtain ⟨j, -, hok⟩ | ⟨-, rfl⟩ := withKey_cases h
  · exact hbody _ hok
  · exact ⟨s.report_fb _, s.report_draw _⟩

theorem sameDisplay_of_call {addr : BitVec 12} {s t : State} (h : exec (.call addr) s = .next t) :
    SameDisplay s t := by
  by_cases hroom : s.sp.val < 16
  · rw [exec_call_of_lt addr hroom] at h
    cases h
    exact ⟨rfl, rfl⟩
  · rw [exec_call_of_full addr (by omega)] at h
    cases h
    exact ⟨rfl, rfl⟩

theorem sameDisplay_of_ret {s t : State} (h : exec .ret s = .next t) : SameDisplay s t := by
  by_cases hpos : 0 < s.sp.val
  · rw [exec_ret_of_pos hpos] at h
    cases h
    exact ⟨rfl, rfl⟩
  · rw [exec_ret_of_empty (by omega)] at h
    cases h
    exact ⟨rfl, rfl⟩

theorem sameDisplay_of_ldVxK {x : Reg} {s t : State} (h : exec (.ldVxK x) s = .next t) :
    SameDisplay s t := by
  cases hkey : firstPressed s.key with
  | none =>
    rw [exec_ldVxK_of_none x hkey] at h
    cases h
    exact ⟨rfl, rfl⟩
  | some k =>
    rw [exec_ldVxK_of_some x hkey] at h
    exact sameDisplay_of_finish h rfl rfl

theorem exec_skp (x : Reg) (s : State) :
    exec (.skp x) s = withKey s (s.reg x) fun pressed => finish (s.skipIf pressed) := rfl

theorem exec_sknp (x : Reg) (s : State) :
    exec (.sknp x) s = withKey s (s.reg x) fun pressed => finish (s.skipIf !pressed) := rfl

/-- Only CLS and DRW write the framebuffer or the redraw flag. -/
theorem exec_keeps_display {i : Instr} (hcls : i ≠ .cls) (hdrw : ∀ x y n, i ≠ .drw x y n)
    {s t : State} (h : exec i s = .next t) : SameDisplay s t := by
  cases i with
  | cls => exact absurd rfl hcls
  | drw x y n => exact absurd rfl (hdrw x y n)
  | call => exact sameDisplay_of_call h
  | ret => exact sameDisplay_of_ret h
  | ldVxK => exact sameDisplay_of_ldVxK h
  | seByte | sneByte | seReg | sneReg => exact sameDisplay_of_finish_skipIf h
  | skp x =>
    rw [exec_skp] at h
    exact sameDisplay_of_withKey h fun b => sameDisplay_of_finish_skipIf
  | sknp x =>
    rw [exec_sknp] at h
    exact sameDisplay_of_withKey h fun b => sameDisplay_of_finish_skipIf
  | ldB | storeRegs =>
    exact sameDisplay_of_withinMemory h fun hbody => sameDisplay_of_finish hbody rfl rfl
  | loadRegs x =>
    exact sameDisplay_of_withinMemory h fun hbody =>
      sameDisplay_of_finish hbody (s.loadRegsUpTo_fb x _) (s.loadRegsUpTo_draw x _)
  | jp | jpV0 | ldByte | addByte | ldReg | or | and | xor | addReg | sub | shr | subn | shl | rnd
  | ldI | addI | ldF | ldVxDt | ldDtVx | ldStVx =>
    exact sameDisplay_of_finish h rfl rfl

theorem exec_cls_draw {s t : State} (h : exec .cls s = .next t) : t.draw = true := by
  rw [exec_cls] at h
  cases h
  rfl

/-- DRW sets the redraw flag where its rows lie in memory, and leaves it alone where it fails. -/
theorem exec_drw_draw {x y : Reg} {n : Fin 16} {s t : State} (h : exec (.drw x y n) s = .next t) :
    t.draw = s.draw ∨ t.draw = true := by
  obtain ⟨-, hbody⟩ | ⟨-, -, rfl⟩ := withinMemory_cases h
  · cases hbody
    exact .inr rfl
  · exact .inl rfl

/-- What an instruction can do to the redraw flag. -/
theorem exec_draw_cases {i : Instr} {s t : State} (h : exec i s = .next t) :
    t.draw = s.draw ∨ (t.draw = true ∧ (i = .cls ∨ ∃ x y n, i = .drw x y n)) := by
  by_cases hcls : i = .cls
  · subst hcls
    exact .inr ⟨exec_cls_draw h, .inl rfl⟩
  by_cases hdrw : ∃ x y n, i = .drw x y n
  · obtain ⟨x, y, n, rfl⟩ := hdrw
    exact (exec_drw_draw h).imp_right fun hset => ⟨hset, .inr ⟨x, y, n, rfl⟩⟩
  · exact .inl (exec_keeps_display hcls (fun x y n he => hdrw ⟨x, y, n, he⟩) h).draw

/-- Settles O12: of a step's three outcomes only the executed instruction can change the redraw flag,
since the reports of a failed fetch or decode, the advance of PC and the timer pass all keep it. -/
theorem redrawFlagIsSetByDisplayAndClearedByHost :
    Obligations.RedrawFlagIsSetByDisplayAndClearedByHost := by
  refine ⟨fun s => ⟨rfl, rfl⟩, fun s t hstep => ?_⟩
  obtain ⟨-, rfl⟩ | ⟨w, r, -, -, rfl⟩ | ⟨w, i, u, hf, hd, hexec, rfl⟩ := step_cases hstep
  · exact .inl rfl
  · exact .inl rfl
  · have hnext : nextInstr s = some i := nextInstr_eq_some.2 ⟨w, hf, hd⟩
    simpa [hnext] using exec_draw_cases hexec

end Sys2Proof.Machine

namespace Sys2Proof.Machine

/-! ### Loading an image (70_reset_and_hazards.md R206, R207) -/

theorem imageFits_iff (bytes : List Byte) : imageFits bytes = true ↔ bytes.length ≤ 3584 :=
  decide_eq_true_iff

/-- An image that fits is stored from 0x200 on. -/
theorem load_of_le {bytes : List Byte} (h : bytes.length ≤ 3584) (s : State) :
    load bytes s = (.ok, s.storeBytes 0x200 bytes) :=
  if_pos ((imageFits_iff bytes).2 h)

/-- An image that does not fit is refused whole. -/
theorem load_of_gt {bytes : List Byte} (h : 3584 < bytes.length) (s : State) :
    load bytes s = (.loadError, s) :=
  if_neg fun hfits => by
    have := (imageFits_iff bytes).1 hfits
    omega

/-- A loaded image reads back byte for byte: 0x200 + 3584 is the end of memory, so every byte of an
image that fits has an address. -/
theorem read_load_of_le {bytes : List Byte} (h : bytes.length ≤ 3584) {s : State}
    (hwf : s.mem.wf = true) {k : Nat} (hk : k < bytes.length) :
    (load bytes s).2.mem.read (0x200 + k) = bytes.getD k 0 := by
  rw [load_of_le h, State.storeBytes_mem, Memory.read_writeBytes hwf (by omega),
    if_pos (by omega), Nat.add_sub_cancel_left]

/-- Settles O10, by the two equations of `load`. The empty image is one that fits, and storing no
bytes leaves the state as it was. -/
theorem loadCopiesTheImageOrRefuses : Obligations.LoadCopiesTheImageOrRefuses :=
  fun bytes s hwf =>
    ⟨fun hle => ⟨by rw [load_of_le hle], fun _ hk => read_load_of_le hle hwf hk⟩,
      load_of_le (bytes := []) (by decide) s, fun hgt => load_of_gt hgt s⟩

end Sys2Proof.Machine
namespace Sys2Proof.Machine

/-! ### The other rows of the opcode table (30_encoding.md R64 to R68, R73) -/

theorem seReg_decodesTo : DecodesTo 0xF000 0x5000 fun w => .seReg (fieldX w) (fieldY w) :=
  decodesTo_of_fieldC (c := 0x5) (by decide) fun w hC => by simp only [decodeWord, hC]

theorem sneReg_decodesTo : DecodesTo 0xF000 0x9000 fun w => .sneReg (fieldX w) (fieldY w) :=
  decodesTo_of_fieldC (c := 0x9) (by decide) fun w hC => by simp only [decodeWord, hC]

theorem rnd_decodesTo : DecodesTo 0xF000 0xC000 fun w => .rnd (fieldX w) (fieldNN w) :=
  decodesTo_of_fieldC (c := 0xC) (by decide) fun w hC => by simp only [decodeWord, hC]

theorem drw_decodesTo :
    DecodesTo 0xF000 0xD000 fun w => .drw (fieldX w) (fieldY w) (fieldN w).toFin :=
  decodesTo_of_fieldC (c := 0xD) (by decide) fun w hC => by simp only [decodeWord, hC]

theorem addReg_decodesTo : DecodesTo 0xF00F 0x8004 fun w => .addReg (fieldX w) (fieldY w) :=
  decodesTo_of_fieldN (n := 0x4) (by decide) fun w hN => by simp only [decodeGroup8, hN]

theorem sub_decodesTo : DecodesTo 0xF00F 0x8005 fun w => .sub (fieldX w) (fieldY w) :=
  decodesTo_of_fieldN (n := 0x5) (by decide) fun w hN => by simp only [decodeGroup8, hN]

theorem shr_decodesTo : DecodesTo 0xF00F 0x8006 fun w => .shr (fieldX w) :=
  decodesTo_of_fieldN (n := 0x6) (by decide) fun w hN => by simp only [decodeGroup8, hN]

theorem subn_decodesTo : DecodesTo 0xF00F 0x8007 fun w => .subn (fieldX w) (fieldY w) :=
  decodesTo_of_fieldN (n := 0x7) (by decide) fun w hN => by simp only [decodeGroup8, hN]

theorem shl_decodesTo : DecodesTo 0xF00F 0x800E fun w => .shl (fieldX w) :=
  decodesTo_of_fieldN (n := 0xE) (by decide) fun w hN => by simp only [decodeGroup8, hN]

/-- The decoder on a row of group E: what it gives where the selector NN is the row's last byte. -/
theorem decodesTo_of_groupE {nn : Byte} {f : Word → Instr}
    (h : ∀ w, fieldNN w = nn → decodeGroupE w = .ok (f w)) :
    DecodesTo 0xF0FF (BitVec.ofNat 16 (0xE000 + nn.toNat)) f := by
  intro w hw
  obtain ⟨hC, hNN⟩ := fields_of_and_F0FF (c := 0xE) (by decide) hw
  simp only [decodeWord, hC]
  exact h w hNN

theorem skp_decodesTo : DecodesTo 0xF0FF 0xE09E fun w => .skp (fieldX w) :=
  decodesTo_of_groupE (nn := 0x9E) fun w hNN => by simp [decodeGroupE, hNN]

theorem sknp_decodesTo : DecodesTo 0xF0FF 0xE0A1 fun w => .sknp (fieldX w) :=
  decodesTo_of_groupE (nn := 0xA1) fun w hNN => by simp [decodeGroupE, hNN]

theorem ldF_decodesTo : DecodesTo 0xF0FF 0xF029 fun w => .ldF (fieldX w) :=
  decodesTo_of_groupF (nn := 0x29) fun w hNN => by simp [decodeGroupF, hNN]

theorem ldB_decodesTo : DecodesTo 0xF0FF 0xF033 fun w => .ldB (fieldX w) :=
  decodesTo_of_groupF (nn := 0x33) fun w hNN => by simp [decodeGroupF, hNN]

theorem storeRegs_decodesTo : DecodesTo 0xF0FF 0xF055 fun w => .storeRegs (fieldX w) :=
  decodesTo_of_groupF (nn := 0x55) fun w hNN => by simp [decodeGroupF, hNN]

theorem loadRegs_decodesTo : DecodesTo 0xF0FF 0xF065 fun w => .loadRegs (fieldX w) :=
  decodesTo_of_groupF (nn := 0x65) fun w hNN => by simp [decodeGroupF, hNN]

end Sys2Proof.Machine

namespace Sys2Proof

/-! ### One statement for the 34 rows -/

/-- The instruction of `i`'s kind whose operands are the fields of `w`. -/
def Instr.withFields (i : Instr) (w : Word) : Instr :=
  match i with
  | .cls => .cls
  | .ret => .ret
  | .jp _ => .jp (fieldNNN w)
  | .call _ => .call (fieldNNN w)
  | .seByte _ _ => .seByte (fieldX w) (fieldNN w)
  | .sneByte _ _ => .sneByte (fieldX w) (fieldNN w)
  | .seReg _ _ => .seReg (fieldX w) (fieldY w)
  | .ldByte _ _ => .ldByte (fieldX w) (fieldNN w)
  | .addByte _ _ => .addByte (fieldX w) (fieldNN w)
  | .ldReg _ _ => .ldReg (fieldX w) (fieldY w)
  | .or _ _ => .or (fieldX w) (fieldY w)
  | .and _ _ => .and (fieldX w) (fieldY w)
  | .xor _ _ => .xor (fieldX w) (fieldY w)
  | .addReg _ _ => .addReg (fieldX w) (fieldY w)
  | .sub _ _ => .sub (fieldX w) (fieldY w)
  | .shr _ => .shr (fieldX w)
  | .subn _ _ => .subn (fieldX w) (fieldY w)
  | .shl _ => .shl (fieldX w)
  | .sneReg _ _ => .sneReg (fieldX w) (fieldY w)
  | .ldI _ => .ldI (fieldNNN w)
  | .jpV0 _ => .jpV0 (fieldNNN w)
  | .rnd _ _ => .rnd (fieldX w) (fieldNN w)
  | .drw _ _ _ => .drw (fieldX w) (fieldY w) (fieldN w).toFin
  | .skp _ => .skp (fieldX w)
  | .sknp _ => .sknp (fieldX w)
  | .ldVxDt _ => .ldVxDt (fieldX w)
  | .ldVxK _ => .ldVxK (fieldX w)
  | .ldDtVx _ => .ldDtVx (fieldX w)
  | .ldStVx _ => .ldStVx (fieldX w)
  | .addI _ => .addI (fieldX w)
  | .ldF _ => .ldF (fieldX w)
  | .ldB _ => .ldB (fieldX w)
  | .storeRegs _ => .storeRegs (fieldX w)
  | .loadRegs _ => .loadRegs (fieldX w)

/-- The row belongs to the kind, not to the operands. -/
@[simp] theorem Instr.row_withFields (i : Instr) (w : Word) : (i.withFields w).row = i.row := by
  cases i <;> rfl

/-- The encoder lays out the operands in the fields they are read from. -/
@[simp] theorem Instr.withFields_encode (i : Instr) : i.withFields (encode i) = i := by
  cases i <;> simp [Instr.withFields, encode]

theorem encode_in_its_row (i : Instr) : Laws.EncodesInItsRow.Statement i := by
  open Laws.EncodesInItsRow in
  cases i with
  | cls => exact cls
  | ret => exact ret
  | jp addr => exact jp addr
  | call addr => exact call addr
  | seByte x nn => exact seByte x nn
  | sneByte x nn => exact sneByte x nn
  | seReg x y => exact seReg x y
  | ldByte x nn => exact ldByte x nn
  | addByte x nn => exact addByte x nn
  | ldReg x y => exact ldReg x y
  | or x y => exact or x y
  | and x y => exact and x y
  | xor x y => exact xor x y
  | addReg x y => exact addReg x y
  | sub x y => exact sub x y
  | shr x => exact shr x
  | subn x y => exact subn x y
  | shl x => exact shl x
  | sneReg x y => exact sneReg x y
  | ldI addr => exact ldI addr
  | jpV0 addr => exact jpV0 addr
  | rnd x nn => exact rnd x nn
  | drw x y n => exact drw x y n
  | skp x => exact skp x
  | sknp x => exact sknp x
  | ldVxDt x => exact ldVxDt x
  | ldVxK x => exact ldVxK x
  | ldDtVx x => exact ldDtVx x
  | ldStVx x => exact ldStVx x
  | addI x => exact addI x
  | ldF x => exact ldF x
  | ldB x => exact ldB x
  | storeRegs x => exact storeRegs x
  | loadRegs x => exact loadRegs x

end Sys2Proof

namespace Sys2Proof.Machine

/-- Every word of a row decodes to the instruction of that row with the word's fields. -/
theorem row_decodesTo (i : Instr) : DecodesTo i.row.mask i.row.pattern i.withFields := by
  cases i with
  | cls => exact cls_decodesTo
  | ret => exact ret_decodesTo
  | jp => exact jp_decodesTo
  | call => exact call_decodesTo
  | seByte => exact seByte_decodesTo
  | sneByte => exact sneByte_decodesTo
  | seReg => exact seReg_decodesTo
  | ldByte => exact ldByte_decodesTo
  | addByte => exact addByte_decodesTo
  | ldReg => exact ldReg_decodesTo
  | or => exact or_decodesTo
  | and => exact and_decodesTo
  | xor => exact xor_decodesTo
  | addReg => exact addReg_decodesTo
  | sub => exact sub_decodesTo
  | shr => exact shr_decodesTo
  | subn => exact subn_decodesTo
  | shl => exact shl_decodesTo
  | sneReg => exact sneReg_decodesTo
  | ldI => exact ldI_decodesTo
  | jpV0 => exact jpV0_decodesTo
  | rnd => exact rnd_decodesTo
  | drw => exact drw_decodesTo
  | skp => exact skp_decodesTo
  | sknp => exact sknp_decodesTo
  | ldVxDt => exact ldVxDt_decodesTo
  | ldVxK => exact ldVxK_decodesTo
  | ldDtVx => exact ldDtVx_decodesTo
  | ldStVx => exact ldStVx_decodesTo
  | addI => exact addI_decodesTo
  | ldF => exact ldF_decodesTo
  | ldB => exact ldB_decodesTo
  | storeRegs => exact storeRegs_decodesTo
  | loadRegs => exact loadRegs_decodesTo

theorem decodeWord_encode (i : Instr) : decodeWord (encode i) = .ok i := by
  rw [row_decodesTo i _ (encode_in_its_row i).1, Instr.withFields_encode]

/-- Settles O1: the two bytes join to the encoder's word, which matches its row, and the decoder on
that row reads back the fields the encoder laid out. -/
theorem decodeInvertsEncode : Obligations.DecodeInvertsEncode := by
  intro i rest
  change (decodeWord (joinBytes (hiByte (encode i)) (loByte (encode i)))).map _ = _
  rw [joinBytes_hiByte_loByte, decodeWord_encode]
  rfl

/-! ### A word that decodes stands in its instruction's row -/

/-- A word of group C is in the row of mask F000 with that C. -/
theorem and_F000_of_fieldC {w : Word} {c : Nat} (h : (fieldC w).toNat = c) :
    w &&& 0xF000#16 = BitVec.ofNat 16 (c * 4096) := by
  have hlt := (fieldC w).isLt
  rw [fieldC_toNat] at h hlt
  exact Laws.EncodesInItsRow.of_F000 (r := w.toNat % 4096) (by omega) (by omega) (by omega)

theorem and_F00F_of_fields {w : Word} {c n : Nat} (h : (fieldC w).toNat = c)
    (hn : (fieldN w).toNat = n) : w &&& 0xF00F#16 = BitVec.ofNat 16 (c * 4096 + n) := by
  have hlt := (fieldC w).isLt
  rw [fieldC_toNat] at h hlt
  rw [fieldN_toNat] at hn
  exact Laws.EncodesInItsRow.of_F00F (x := w.toNat / 16 % 256) (by omega) (by omega) (by omega)
    (by omega)

theorem and_F0FF_of_fields {w : Word} {c : Nat} {nn : Byte} (h : (fieldC w).toNat = c)
    (hnn : fieldNN w = nn) : w &&& 0xF0FF#16 = BitVec.ofNat 16 (c * 4096 + nn.toNat) := by
  subst hnn
  have hlt := (fieldC w).isLt
  rw [fieldC_toNat] at h hlt
  exact Laws.EncodesInItsRow.of_F0FF (x := w.toNat / 256 % 16) (by omega) (by omega)
    (fieldNN w).isLt (by rw [fieldNN_toNat]; omega)

/-- `w` stands in the row of `i`, and `i` has the operands of its fields. -/
def ReadsAs (w : Word) (i : Instr) : Prop := w &&& i.row.mask = i.row.pattern ∧ i.withFields w = i

theorem readsAs_of_group0 {w : Word} {i : Instr} (h : decodeGroup0 w = .ok i) : ReadsAs w i := by
  unfold decodeGroup0 at h
  split_ifs at h with h1 h2 <;> cases h
  · subst h1; exact ⟨rfl, rfl⟩
  · subst h2; exact ⟨rfl, rfl⟩

theorem readsAs_of_group8 {w : Word} {i : Instr} (hC : (fieldC w).toNat = 8)
    (h : decodeGroup8 w = .ok i) : ReadsAs w i := by
  unfold decodeGroup8 at h
  split at h <;> cases h <;> exact ⟨(and_F00F_of_fields hC ‹_› :), rfl⟩

theorem readsAs_of_groupE {w : Word} {i : Instr} (hC : (fieldC w).toNat = 0xE)
    (h : decodeGroupE w = .ok i) : ReadsAs w i := by
  unfold decodeGroupE at h
  split_ifs at h <;> cases h <;> exact ⟨(and_F0FF_of_fields hC ‹_› :), rfl⟩

theorem readsAs_of_groupF {w : Word} {i : Instr} (hC : (fieldC w).toNat = 0xF)
    (h : decodeGroupF w = .ok i) : ReadsAs w i := by
  unfold decodeGroupF at h
  split_ifs at h <;> cases h <;> exact ⟨(and_F0FF_of_fields hC ‹_› :), rfl⟩

theorem readsAs_of_decodeWord {w : Word} {i : Instr} (h : decodeWord w = .ok i) : ReadsAs w i := by
  have hlt := (fieldC w).isLt
  unfold decodeWord at h
  split at h
  case h_1 => exact readsAs_of_group0 h
  case h_9 hC => exact readsAs_of_group8 hC h
  case h_15 hC => exact readsAs_of_groupE hC h
  case h_16 =>
    have hC : (fieldC w).toNat = 0xF := by
      simp only [imp_false] at *
      omega
    exact readsAs_of_groupF hC h
  all_goals
    cases h
    exact ⟨(and_F000_of_fieldC ‹_› :), rfl⟩

/-! ### The decoder and the opcode table -/

/-- The decoder answers an instruction exactly on the words of its row, read with its fields. -/
theorem decodeWord_eq_ok {w : Word} {i : Instr} : decodeWord w = .ok i ↔ ReadsAs w i :=
  ⟨readsAs_of_decodeWord, fun ⟨hrow, hfields⟩ => (row_decodesTo i w hrow).trans (by rw [hfields])⟩

theorem row_mem_opcodeTable (i : Instr) : i.row ∈ opcodeTable := by
  cases i <;> simp [opcodeTable, Instr.kinds, Instr.row]

theorem mem_opcodeTable {r : OpRow} : r ∈ opcodeTable ↔ ∃ i : Instr, i.row = r :=
  ⟨fun h => (List.mem_map.1 h).imp fun _ hi => hi.2, fun ⟨i, hi⟩ => hi ▸ row_mem_opcodeTable i⟩

/-- A word that a row of the table admits decodes to an instruction of that row. -/
theorem decodeWord_of_mem_opcodeTable {w : Word} {r : OpRow} (hr : r ∈ opcodeTable)
    (hw : w &&& r.mask = r.pattern) : ∃ i, decodeWord w = .ok i ∧ i.row = r := by
  obtain ⟨i, rfl⟩ := mem_opcodeTable.1 hr
  exact ⟨i.withFields w, row_decodesTo i w hw, i.row_withFields w⟩

theorem legalWord_iff {w : Word} : legalWord w = true ↔ ∃ i, decodeWord w = .ok i := by
  simp only [legalWord, List.any_eq_true, OpRow.admits, beq_iff_eq]
  constructor
  · rintro ⟨r, hr, hw⟩
    exact (decodeWord_of_mem_opcodeTable hr hw).imp fun _ hi => hi.1
  · rintro ⟨i, hi⟩
    exact ⟨i.row, row_mem_opcodeTable i, (decodeWord_eq_ok.1 hi).1⟩

/-- Two rows that admit one word are one row: both are the row of the instruction the word decodes
to. -/
theorem row_unique {w : Word} {r r' : OpRow} (hr : r ∈ opcodeTable) (hr' : r' ∈ opcodeTable)
    (hw : w &&& r.mask = r.pattern) (hw' : w &&& r'.mask = r'.pattern) : r = r' := by
  obtain ⟨i, hi, rfl⟩ := decodeWord_of_mem_opcodeTable hr hw
  obtain ⟨j, hj, rfl⟩ := decodeWord_of_mem_opcodeTable hr' hw'
  cases hi.symm.trans hj
  rfl

/-- Settles O2: a word decodes exactly where a row admits it, to an instruction of that row. -/
theorem decoderAgreesWithOpcodeTable : Obligations.DecoderAgreesWithOpcodeTable :=
  ⟨by decide, fun _ i h => ⟨row_mem_opcodeTable i, (decodeWord_eq_ok.1 h).1⟩,
    fun _ => legalWord_iff.1, fun _ _ hr _ hr' => row_unique hr hr'⟩

/-! ### The bits the decoder ignores (30_encoding.md R70) -/

theorem wordNNN_fields (w : Word) : wordNNN (fieldC w) (fieldNNN w) = w := by
  apply BitVec.eq_of_toNat_eq
  rw [wordNNN_toNat, fieldC_toNat, fieldNNN_toNat]
  omega

theorem wordXNN_fields (w : Word) : wordXNN (fieldC w) (fieldX w) (fieldNN w) = w := by
  apply BitVec.eq_of_toNat_eq
  rw [wordXNN_toNat, fieldC_toNat, fieldX_val, fieldNN_toNat]
  omega

theorem wordXYN_fields (w : Word) :
    wordXYN (fieldC w) (fieldX w) (fieldY w) (fieldN w) = w := by
  apply BitVec.eq_of_toNat_eq
  rw [wordXYN_toNat, fieldC_toNat, fieldX_val, fieldY_val, fieldN_toNat]
  omega

theorem and_FFF0_toNat (w : Word) : (w &&& 0xFFF0#16).toNat = w.toNat / 16 * 16 := by
  have hw := w.isLt
  have e : w &&& 0xFFF0#16 = (w >>> 4) <<< 4 := by
    ext i hi
    interval_cases i <;> simp
  rw [e]
  simp [Nat.shiftRight_eq_div_pow, Nat.shiftLeft_eq]
  omega

theorem and_FF0F_toNat (w : Word) :
    (w &&& 0xFF0F#16).toNat = w.toNat / 256 * 256 + w.toNat % 16 := by
  have hw := w.isLt
  have e : w &&& 0xFF0F#16 = (w >>> 8) <<< 8 ||| w &&& 0x000F#16 := by
    ext i hi
    interval_cases i <;> simp
  have hhigh : ((w >>> 8) <<< 8).toNat = w.toNat / 256 * 2 ^ 8 := by
    simp [Nat.shiftRight_eq_div_pow, Nat.shiftLeft_eq]
    omega
  have hlow : (w &&& 0x000F#16).toNat = w.toNat % 16 := by
    simpa using Nat.and_two_pow_sub_one_eq_mod w.toNat 4
  rw [e, BitVec.toNat_or, hhigh, hlow, ← Nat.shiftLeft_eq,
    ← Nat.shiftLeft_add_eq_or_of_lt (by omega), Nat.shiftLeft_eq]

theorem and_FFF0_eq (w : Word) :
    w &&& 0xFFF0#16 = wordXYN (fieldC w) (fieldX w) (fieldY w) 0#4 := by
  apply BitVec.eq_of_toNat_eq
  rw [and_FFF0_toNat, wordXYN_toNat, fieldC_toNat, fieldX_val, fieldY_val, BitVec.toNat_zero]
  omega

theorem and_FF0F_eq (w : Word) :
    w &&& 0xFF0F#16 = wordXYN (fieldC w) (fieldX w) 0 (fieldN w) := by
  apply BitVec.eq_of_toNat_eq
  rw [and_FF0F_toNat, wordXYN_toNat, fieldC_toNat, fieldX_val, fieldN_toNat, Fin.val_zero]
  omega

/-! The encoder's word is recovered from the fields of any word of the row, but for the ignored
bits. -/

theorem fieldC_of_row {w : Word} {c : BitVec 4}
    (h : w &&& 0xF000#16 = BitVec.ofNat 16 (c.toNat * 4096)) : fieldC w = c :=
  BitVec.eq_of_toNat_eq (fieldC_of_and_F000 c.isLt h)

theorem wordNNN_of_row {w : Word} {c : BitVec 4}
    (h : w &&& 0xF000#16 = BitVec.ofNat 16 (c.toNat * 4096)) : wordNNN c (fieldNNN w) = w := by
  rw [← fieldC_of_row h, wordNNN_fields]

theorem wordXNN_of_row {w : Word} {c : BitVec 4}
    (h : w &&& 0xF000#16 = BitVec.ofNat 16 (c.toNat * 4096)) :
    wordXNN c (fieldX w) (fieldNN w) = w := by
  rw [← fieldC_of_row h, wordXNN_fields]

theorem wordXYN_of_row {w : Word} {c : BitVec 4}
    (h : w &&& 0xF000#16 = BitVec.ofNat 16 (c.toNat * 4096)) :
    wordXYN c (fieldX w) (fieldY w) (fieldN w) = w := by
  rw [← fieldC_of_row h, wordXYN_fields]

theorem wordXY0_of_row {w : Word} {c : BitVec 4}
    (h : w &&& 0xF000#16 = BitVec.ofNat 16 (c.toNat * 4096)) :
    wordXYN c (fieldX w) (fieldY w) 0 = w &&& ~~~0x000F#16 := by
  rw [← fieldC_of_row h]
  exact (and_FFF0_eq w).symm

/-- A word of a row of group 8, its selector given as the encoder writes it. -/
theorem fields_of_group8_row {w : Word} {n : BitVec 4}
    (h : w &&& 0xF00F#16 = BitVec.ofNat 16 (0x8000 + n.toNat)) : fieldC w = 0x8 ∧ fieldN w = n :=
  (fields_of_and_F00F n.isLt h).imp (fun hC => BitVec.eq_of_toNat_eq hC) BitVec.eq_of_toNat_eq

theorem wordXY_of_group8_row {w : Word} {n : BitVec 4}
    (h : w &&& 0xF00F#16 = BitVec.ofNat 16 (0x8000 + n.toNat)) :
    wordXYN 0x8 (fieldX w) (fieldY w) n = w := by
  obtain ⟨hC, hN⟩ := fields_of_group8_row h
  rw [← hC, ← hN, wordXYN_fields]

theorem wordX0_of_group8_row {w : Word} {n : BitVec 4}
    (h : w &&& 0xF00F#16 = BitVec.ofNat 16 (0x8000 + n.toNat)) :
    wordXYN 0x8 (fieldX w) 0 n = w &&& ~~~0x00F0#16 := by
  obtain ⟨hC, hN⟩ := fields_of_group8_row h
  rw [← hC, ← hN]
  exact (and_FF0F_eq w).symm

theorem wordX_of_row {w : Word} {c : BitVec 4} {nn : Byte}
    (h : w &&& 0xF0FF#16 = BitVec.ofNat 16 (c.toNat * 4096 + nn.toNat)) :
    wordXNN c (fieldX w) nn = w := by
  obtain ⟨hC, rfl⟩ := fields_of_and_F0FF c.isLt h
  obtain rfl : fieldC w = c := BitVec.eq_of_toNat_eq hC
  exact wordXNN_fields w

/-- Encoding what the decoder reads from a word of the row gives the word back with its ignored bits
cleared. -/
theorem encode_withFields {i : Instr} {w : Word} (h : w &&& i.row.mask = i.row.pattern) :
    encode (i.withFields w) = w &&& ~~~(ignoredBits i) := by
  have hall : w = w &&& ~~~0x0000#16 := BitVec.and_allOnes.symm
  cases i with
  | cls | ret => exact h.symm
  | jp | call | ldI | jpV0 => exact (wordNNN_of_row h).trans hall
  | seByte | sneByte | ldByte | addByte | rnd => exact (wordXNN_of_row h).trans hall
  | drw => exact (wordXYN_of_row h).trans hall
  | seReg => exact wordXY0_of_row (c := 0x5) h
  | sneReg => exact wordXY0_of_row (c := 0x9) h
  | ldReg | or | and | xor | addReg | sub | subn => exact (wordXY_of_group8_row h).trans hall
  | shr => exact wordX0_of_group8_row (n := 0x6) h
  | shl => exact wordX0_of_group8_row (n := 0xE) h
  | skp | sknp | ldVxDt | ldVxK | ldDtVx | ldStVx | addI | ldF | ldB | storeRegs | loadRegs =>
    exact (wordX_of_row h).trans hall

/-- No bit of the row's mask is ignored. -/
theorem not_ignoredBits_and_mask (i : Instr) : ~~~(ignoredBits i) &&& i.row.mask = i.row.mask := by
  cases i <;> simp only [ignoredBits, Instr.row] <;> decide

/-- A word decodes to `i` exactly when it is the encoder's word of `i` but for the ignored bits. -/
theorem decodeWord_eq_ok_iff_encode {w : Word} {i : Instr} :
    decodeWord w = .ok i ↔ w &&& ~~~(ignoredBits i) = encode i := by
  constructor
  · intro h
    obtain ⟨hrow, hfields⟩ := decodeWord_eq_ok.1 h
    rw [← encode_withFields hrow, hfields]
  · intro h
    have hrow : w &&& i.row.mask = i.row.pattern := by
      rw [← not_ignoredBits_and_mask, ← BitVec.and_assoc, h, (encode_in_its_row i).1]
    have hencode : encode (i.withFields w) = encode i := (encode_withFields hrow).trans h
    rw [row_decodesTo i w hrow, ← decodeWord_encode, hencode, decodeWord_encode]

theorem and_eq_and_iff_xor_and {a b m : Word} : a &&& m = b &&& m ↔ (a ^^^ b) &&& m = 0 := by
  have hdistrib : (a ^^^ b) &&& m = a &&& m ^^^ b &&& m := by
    ext k hk
    cases hm : m[k] <;> simp [hm]
  rw [hdistrib]
  exact BitVec.xor_eq_zero_iff.symm

/-- Settles O3: both words are then the encoder's word but for the ignored bits, so they agree
outside them. -/
theorem ignoredBitsAreExactlyTheListed : Obligations.IgnoredBitsAreExactlyTheListed := by
  refine ⟨fun w w' i h => ?_, fun i => by cases i <;> simp [ignoredBits]⟩
  rw [decodeWord_eq_ok_iff_encode] at h ⊢
  rw [← h, eq_comm, and_eq_and_iff_xor_and]

/-! ### The words the decoder rejects (30_encoding.md R71, R72) -/

theorem decodeGroup0_error {w : Word} :
    (∃ r, decodeGroup0 w = .error r) ↔ w ≠ 0x00E0 ∧ w ≠ 0x00EE := by
  unfold decodeGroup0
  split_ifs with h1 h2 <;> simp_all

theorem decodeGroup8_error {w : Word} : (∃ r, decodeGroup8 w = .error r) ↔
    (fieldN w).toNat ∈ [0x8, 0x9, 0xA, 0xB, 0xC, 0xD, 0xF] := by
  have hlt := (fieldN w).isLt
  unfold decodeGroup8
  generalize (fieldN w).toNat = n at hlt
  interval_cases n <;> simp

theorem decodeGroupE_error {w : Word} : (∃ r, decodeGroupE w = .error r) ↔
    (fieldNN w).toNat ∉ [0x9E, 0xA1] := by
  simp only [List.mem_cons, List.not_mem_nil, or_false, not_or]
  unfold decodeGroupE
  split_ifs <;> simp_all [BitVec.toNat_eq]

theorem decodeGroupF_error {w : Word} : (∃ r, decodeGroupF w = .error r) ↔
    (fieldNN w).toNat ∉ [0x07, 0x0A, 0x15, 0x18, 0x1E, 0x29, 0x33, 0x55, 0x65] := by
  unfold decodeGroupF
  split_ifs <;> simp_all [BitVec.toNat_eq]

/-- Settles O4: the first level sends a word to the group of its C, and the four groups that reject
some words are the four disjuncts. -/
theorem illegalWordsByGroup : Obligations.IllegalWordsByGroup := by
  intro w
  rw [← decodeGroup0_error, ← decodeGroup8_error, ← decodeGroupE_error, ← decodeGroupF_error]
  have hlt := (fieldC w).isLt
  unfold decodeWord
  generalize (fieldC w).toNat = c at hlt
  interval_cases c <;> simp

/-- Settles O5: on group 0 the decoder is the comparison with its two words, and the word at the
reset PC, 0000, is neither. -/
theorem groupZeroMatchesAllSixteenBits : Obligations.GroupZeroMatchesAllSixteenBits := by
  refine ⟨fun w hC => ?_, _, rfl, rfl⟩
  have hgroup : decodeWord w = decodeGroup0 w := by simp only [decodeWord, hC]
  rw [hgroup]
  unfold decodeGroup0
  split_ifs <;> simp_all

/-- Settles O6, by running the decoder on the eleven words. -/
theorem sampleWordsDecode : Obligations.SampleWordsDecode := by
  unfold Obligations.SampleWordsDecode
  decide

end Sys2Proof.Machine

namespace Sys2Proof.Machine

/-! ### What executing an instruction can do

Every instruction either fails, and then nothing but the status changes, or completes with one of a
few kinds of write. The facts about all 34 instructions are read off these two lists. -/

/-- How many bytes of memory, from I on, an instruction accesses (42_index_memory.md, 43_display.md
R141). -/
def accessBytes : Instr → Nat
  | .ldB _ => 3
  | .storeRegs x | .loadRegs x => x.val + 1
  | .drw _ _ n => n.val
  | _ => 0

/-- Executing `i` from `s` fails with this status (60_exceptions.md R173). -/
inductive Fails (s : State) : Instr → Status → Prop
  | call (addr : BitVec 12) (hfull : s.sp.val = 16) :
      Fails s (.call addr) (.stackOverflow (s.pc - 2))
  | ret (hempty : s.sp.val = 0) : Fails s .ret (.stackUnderflow (s.pc - 2))
  | data {i : Instr} (index : Nat) (hsome : accessBytes i ≠ 0)
      (hout : 4096 < s.i.toNat + accessBytes i) :
      Fails s i (.boundsFault .data index (s.pc - 2))
  | key {i : Instr} (x : Reg) (hi : i = .skp x ∨ i = .sknp x) (hkey : 15 < (s.reg x).toNat) :
      Fails s i (.boundsFault .key (s.reg x).toNat (s.pc - 2))

/-- Executing `i` from `s` completes, with the writes that make `u` of `s`. -/
inductive Writes (s : State) : Instr → State → Prop
  | cls : Writes s .cls { s with fb := Framebuffer.clear, draw := true }
  | ret (hpos : 0 < s.sp.val) : Writes s .ret { s with
      pc := s.stack[s.sp.val - 1]'(by omega), sp := ⟨s.sp.val - 1, by omega⟩ }
  | call (addr : BitVec 12) (hroom : s.sp.val < 16) : Writes s (.call addr) { s with
      pc := zext16 addr, sp := ⟨s.sp.val + 1, by omega⟩, stack := s.stack.set s.sp.val s.pc }
  | jp (addr : BitVec 12) : Writes s (.jp addr) (s.jump (zext16 addr))
  | jpV0 (addr : BitVec 12) : Writes s (.jpV0 addr) (s.jump (zext16 addr + zext16 (s.reg v0)))
  | skip {i : Instr} (b : Bool) (hpc : changesPc i = true) (hflag : writesFlag i = false) :
      Writes s i { s with pc := if b then s.pc + 2 else s.pc }
  | wait (x : Reg) : Writes s (.ldVxK x) (s.jump (s.pc - 2))
  | reg {i : Instr} {x : Reg} (b : Byte) (hdest : destRegs i = [x]) (hflag : writesFlag i = false) :
      Writes s i (s.setReg x b)
  | random (x : Reg) (nn : Byte) (b : Byte) : Writes s (.rnd x nn) (s.drawRnd.2.setReg x b)
  | flagged {i : Instr} {x : Reg} (f : Bool) (b : Byte) (hdest : destRegs i = [x])
      (hflag : writesFlag i = true) : Writes s i (s.setFlagThenReg (flagByte f) x b)
  | index {i : Instr} (w : Word) (hi : (∃ a, i = .ldI a) ∨ ∃ x, i = .addI x ∨ i = .ldF x) :
      Writes s i (s.setI w)
  | delay (x : Reg) : Writes s (.ldDtVx x) { s with dt := s.reg x }
  | sound (x : Reg) : Writes s (.ldStVx x) { s with st := s.reg x }
  | store {i : Instr} (bs : List Byte) (hi : ∃ x, i = .ldB x ∨ i = .storeRegs x)
      (hfit : s.i.toNat + bs.length ≤ 4096) : Writes s i (s.storeBytes s.i.toNat bs)
  | load (x : Reg) : Writes s (.loadRegs x) (s.loadRegsUpTo x s.i.toNat)
  | draw (x y : Reg) (n : Fin 16) (hit : Bool) (fb : Framebuffer) : Writes s (.drw x y n)
      { s.setReg vf (flagByte hit) with fb := fb, draw := true }

/-- What executing `i` from `s` can end in. -/
inductive Effect (s : State) (i : Instr) : State → Prop
  | fails {c : Status} (h : Fails s i c) : Effect s i (s.report c)
  | completes {u : State} (h : Writes s i u) : Effect s i (u.report .ok)

/-- An access to memory from I on fails, or does what its continuation does. -/
theorem withinMemory_effect {s u : State} {i : Instr}
    (hu : accessBytes i = 0 ∨ s.i.toNat + accessBytes i ≤ 4096 → Writes s i u) :
    ∃ t, withinMemory s s.i.toNat (accessBytes i) (finish u) = .next t ∧ Effect s i t := by
  by_cases h : accessBytes i = 0 ∨ s.i.toNat + accessBytes i ≤ 4096
  · exact ⟨_, withinMemory_of_le s _ h, .completes (hu h)⟩
  · have hsome : accessBytes i ≠ 0 := by omega
    have hout : 4096 < s.i.toNat + accessBytes i := by omega
    exact ⟨_, withinMemory_of_gt s _ hsome hout, .fails (.data _ hsome hout)⟩

/-- A skip on a key level fails on a key number above 15, or skips or not. -/
theorem withKey_effect {s : State} {i : Instr} {x : Reg} (hi : i = .skp x ∨ i = .sknp x)
    (f : Bool → Bool) :
    ∃ t, withKey s (s.reg x) (fun b => finish (s.skipIf (f b))) = .next t ∧ Effect s i t := by
  by_cases h : (s.reg x).toNat < 16
  · have hskip : changesPc i = true ∧ writesFlag i = false := by
      rcases hi with rfl | rfl <;> exact ⟨rfl, rfl⟩
    exact ⟨_, (withKey_of_lt s _ h).trans (finish_skipIf s _),
      .completes (.skip _ hskip.1 hskip.2)⟩
  · exact ⟨_, withKey_of_ge s _ (by omega), .fails (.key x hi (by omega))⟩

theorem call_effect (addr : BitVec 12) (s : State) :
    ∃ t, exec (.call addr) s = .next t ∧ Effect s (.call addr) t := by
  by_cases h : s.sp.val < 16
  · exact ⟨_, exec_call_of_lt addr h, .completes (.call addr h)⟩
  · have hfull : s.sp.val = 16 := by omega
    exact ⟨_, exec_call_of_full addr hfull, .fails (.call addr hfull)⟩

theorem ret_effect (s : State) : ∃ t, exec .ret s = .next t ∧ Effect s .ret t := by
  by_cases h : 0 < s.sp.val
  · exact ⟨_, exec_ret_of_pos h, .completes (.ret h)⟩
  · have hempty : s.sp.val = 0 := by omega
    exact ⟨_, exec_ret_of_empty hempty, .fails (.ret hempty)⟩

theorem ldVxK_effect (x : Reg) (s : State) :
    ∃ t, exec (.ldVxK x) s = .next t ∧ Effect s (.ldVxK x) t := by
  cases h : firstPressed s.key with
  | none => exact ⟨_, exec_ldVxK_of_none x h, .completes (.wait x)⟩
  | some k => exact ⟨_, exec_ldVxK_of_some x h, .completes (.reg _ rfl rfl)⟩

theorem length_regsUpTo (s : State) (x : Reg) : (s.regsUpTo x).length = x.val + 1 := by
  have := x.isLt
  simp [State.regsUpTo]

/-- Every instruction has a next state, and it is one of the two lists'. -/
theorem exec_effect (i : Instr) (s : State) : ∃ t, exec i s = .next t ∧ Effect s i t := by
  cases i with
  | cls => exact ⟨_, rfl, .completes .cls⟩
  | ret => exact ret_effect s
  | call addr => exact call_effect addr s
  | jp addr => exact ⟨_, rfl, .completes (.jp addr)⟩
  | jpV0 addr => exact ⟨_, rfl, .completes (.jpV0 addr)⟩
  | seByte | sneByte | seReg | sneReg =>
    exact ⟨_, finish_skipIf s _, .completes (.skip _ rfl rfl)⟩
  | skp x => exact withKey_effect (.inl rfl) fun b => b
  | sknp x => exact withKey_effect (.inr rfl) fun b => !b
  | ldByte | addByte | ldReg | or | and | xor | ldVxDt =>
    exact ⟨_, rfl, .completes (.reg _ rfl rfl)⟩
  | addReg | sub | shr | subn | shl => exact ⟨_, rfl, .completes (.flagged _ _ rfl rfl)⟩
  | rnd x nn => exact ⟨_, rfl, .completes (.random x nn _)⟩
  | ldI addr => exact ⟨_, rfl, .completes (.index _ (.inl ⟨addr, rfl⟩))⟩
  | addI x => exact ⟨_, rfl, .completes (.index _ (.inr ⟨x, .inl rfl⟩))⟩
  | ldF x => exact ⟨_, rfl, .completes (.index _ (.inr ⟨x, .inr rfl⟩))⟩
  | ldVxK x => exact ldVxK_effect x s
  | ldDtVx x => exact ⟨_, rfl, .completes (.delay x)⟩
  | ldStVx x => exact ⟨_, rfl, .completes (.sound x)⟩
  | ldB x =>
    exact withinMemory_effect fun h =>
      .store (bcdDigits (s.reg x)) ⟨x, .inl rfl⟩ (h.resolve_left (Nat.succ_ne_zero 2))
  | storeRegs x =>
    refine withinMemory_effect fun h => .store _ ⟨x, .inr rfl⟩ ?_
    rw [length_regsUpTo]
    exact h.resolve_left (Nat.succ_ne_zero _)
  | loadRegs x => exact withinMemory_effect fun _ => .load x
  | drw x y n => exact withinMemory_effect fun _ => .draw x y n _ _

/-- What an instruction has done, from the state it ended in. -/
theorem effect_of_exec {i : Instr} {s t : State} (h : exec i s = .next t) : Effect s i t := by
  obtain ⟨u, hu, he⟩ := exec_effect i s
  cases h.symm.trans hu
  exact he

end Sys2Proof.Machine

namespace Sys2Proof.Machine

/-- What neither the status nor a completed instruction's writes change is unchanged, however the
instruction ends. -/
theorem exec_keeps {α : Type} (f : State → α) (hreport : ∀ u c, f (u.report c) = f u) {i : Instr}
    {s t : State} (h : exec i s = .next t) (hw : ∀ u, Writes s i u → f u = f s) : f t = f s := by
  cases effect_of_exec h with
  | fails hf => exact hreport s _
  | completes hw' => exact (hreport _ _).trans (hw _ hw')

/-! ### What a failure is, and what it leaves alone (60_exceptions.md R173, R175) -/

theorem Fails.ne_ok {s : State} {i : Instr} {c : Status} (h : Fails s i c) : c ≠ .ok := by
  cases h <;> exact Status.noConfusion

/-- An execution that does not return OK has failed, and only the status has changed. -/
theorem fails_of_exec {i : Instr} {s t : State} (h : exec i s = .next t)
    (hstatus : t.status ≠ some .ok) : ∃ c, Fails s i c ∧ t = s.report c := by
  cases effect_of_exec h with
  | fails hf => exact ⟨_, hf, rfl⟩
  | completes hw => exact absurd rfl hstatus

/-- The instructions that access memory, with their accesses written out. -/
theorem accessBytes_cases {i : Instr} (h : accessBytes i ≠ 0) :
    (∃ x, i = .ldB x ∧ accessBytes i = 3) ∨
    (∃ x, (i = .storeRegs x ∨ i = .loadRegs x) ∧ accessBytes i = x.val + 1) ∨
    (∃ x y n, i = .drw x y n ∧ accessBytes i = n.val) := by
  cases i with
  | ldB x => exact .inl ⟨x, rfl, rfl⟩
  | storeRegs x => exact .inr (.inl ⟨x, .inl rfl, rfl⟩)
  | loadRegs x => exact .inr (.inl ⟨x, .inr rfl, rfl⟩)
  | drw x y n => exact .inr (.inr ⟨x, y, n, rfl, rfl⟩)
  | _ => exact absurd rfl h

/-- Settles O17: the four constructors of `Fails` are the four disjuncts. -/
theorem failureCausesAreExhaustive : Obligations.FailureCausesAreExhaustive := by
  intro i s t h hstatus
  obtain ⟨c, hf, rfl⟩ := fails_of_exec h hstatus
  cases hf with
  | call addr hfull => exact .inl ⟨⟨addr, rfl⟩, hfull, rfl⟩
  | ret hempty => exact .inr (.inl ⟨rfl, hempty, rfl⟩)
  | data index hsome hout =>
    refine .inr (.inr (.inl ⟨?_, index, rfl⟩))
    rcases accessBytes_cases hsome with ⟨x, hi, hn⟩ | ⟨x, hi, hn⟩ | ⟨x, y, n, hi, hn⟩
    · exact .inl ⟨x, hi, by omega⟩
    · exact .inr (.inl ⟨x, hi, by omega⟩)
    · exact .inr (.inr ⟨x, y, n, hi, by omega, by omega⟩)
  | key x hi hkey => exact .inr (.inr (.inr ⟨x, hi, hkey, rfl⟩))

/-- Settles O16: a failed fetch reports on the state itself; an undecodable word and a failed
execution report on the state with PC advanced; the timer pass follows in each case. -/
theorem failingStepWritesNothing : Obligations.FailingStepWritesNothing := by
  intro s t hstep hstatus
  rcases step_cases hstep with ⟨hf, rfl⟩ | ⟨w, r, hf, -, rfl⟩ | ⟨w, i, u, hf, -, hexec, rfl⟩
  · exact .inl ⟨hf, State.timerPass_eq _⟩
  · exact .inr ⟨by simp [hf], State.timerPass_eq _⟩
  · obtain ⟨c, -, rfl⟩ := fails_of_exec hexec hstatus
    exact .inr ⟨by simp [hf], State.timerPass_eq _⟩

/-! ### A step always ends in a state (40_control_flow.md R88, R89) -/

theorem step_of_fetch_none {s : State} (h : fetchWord s = none) :
    step s = endStep (reportFetchFault s) := by
  rw [step, h]

/-- The address of the instruction, from the advanced PC (R15). -/
theorem State.advance_pc_sub_two (s : State) : s.advance.pc - 2 = s.pc := by
  simp

theorem step_of_undecoded {s : State} {w : Word} {r : DecodeReject} (hf : fetchWord s = some w)
    (hd : decodeWord w = .error r) :
    step s = .next (s.advance.report (.decodeError w s.pc)).timerPass := by
  rw [step, hf]
  simp only [hd]
  rw [reportDecodeError, raise_eq, State.advance_pc_sub_two]
  rfl

theorem exists_step (s : State) : ∃ t, step s = .next t := by
  cases hf : fetchWord s with
  | none => exact ⟨_, step_of_fetch_none hf⟩
  | some w =>
    cases hd : decodeWord w with
    | error r => exact ⟨_, step_of_undecoded hf hd⟩
    | ok i =>
      obtain ⟨t, ht, -⟩ := exec_effect i s.advance
      exact ⟨t.timerPass, by rw [step_of_decoded hf hd, ht]; rfl⟩

/-- The state a step ends in is the executed instruction's after the timer pass. -/
theorem exec_of_step {s t : State} {i : Instr} (hi : nextInstr s = some i)
    (hstep : step s = .next t) : ∃ u, exec i s.advance = .next u ∧ t = u.timerPass := by
  rw [step_of_nextInstr hi] at hstep
  exact endStep_next.1 hstep

/-- An instruction that is no control transfer leaves PC alone. -/
theorem exec_keeps_pc {i : Instr} {s t : State} (h : exec i s = .next t)
    (hpc : changesPc i = false) : t.pc = s.pc :=
  exec_keeps State.pc (fun _ _ => rfl) h fun u hw => by
    cases hw with
    | skip b hpc' => rw [hpc] at hpc'; cases hpc'
    | ret | call | jp | jpV0 | wait => cases hpc
    | _ => rfl

/-- Settles O15: every instruction has a next state, and the pre-increment is the step's own. -/
theorem everyStepHasANextState : Obligations.EveryStepHasANextState := by
  refine ⟨exists_step, fun s t i hi hpc hstep => ?_⟩
  obtain ⟨u, hu, rfl⟩ := exec_of_step hi hstep
  exact exec_keeps_pc hu hpc

/-! ### Registers and flags (10_state.md R11) -/

theorem destRegs_loadRegs {x r : Reg} : r ∈ destRegs (.loadRegs x) ↔ r ≤ x := by
  simp [destRegs]

/-- A completed instruction writes its destination, the flag, the block V0 to Vx, or no register. -/
theorem Writes.keeps_reg {s u : State} {i : Instr} (hw : Writes s i u) {r : Reg}
    (hdest : r ∉ destRegs i) (hvf : r = vf → writesFlag i = false) : u.reg r = s.reg r := by
  cases hw with
  | reg b hx => exact State.reg_setReg_ne s b (by simpa [hx] using hdest)
  | random x nn b => exact State.reg_setReg_ne s.drawRnd.2 b (by simpa [destRegs] using hdest)
  | flagged f b hx hflag =>
    have hne : r ≠ vf := fun e => by rw [hvf e] at hflag; cases hflag
    rw [State.reg_setFlagThenReg, if_neg (by simpa [hx] using hdest), if_neg hne]
  | load x => rw [State.reg_loadRegsUpTo, if_neg (mt destRegs_loadRegs.2 hdest)]
  | draw x y n hit fb =>
    have hne : r ≠ vf := fun e => by cases hvf e
    exact State.reg_setReg_ne s (flagByte hit) hne
  | _ => rfl

/-- Settles O29: the status is no register, and a completed instruction keeps the others. -/
theorem registersChangeOnlyAsDestinationOrFlag :
    Obligations.RegistersChangeOnlyAsDestinationOrFlag := fun _ _ _ r h hdest hvf =>
  exec_keeps (·.reg r) (fun u c => State.reg_report u c r) h fun _ hw => hw.keeps_reg hdest hvf

theorem flagByte_eq_zero_or_one (b : Bool) : flagByte b = 0x00 ∨ flagByte b = 0x01 := by
  cases b <;> simp [flagByte]

/-- Settles O30: a flag writer that completes has put a flag in VF, and its result elsewhere. -/
theorem flagWritersWriteZeroOrOne : Obligations.FlagWritersWriteZeroOrOne := by
  intro i s t hflag hdest h hok
  cases effect_of_exec h with
  | fails hf => exact absurd (Option.some.inj hok) hf.ne_ok
  | completes hw =>
    rw [State.reg_report]
    cases hw with
    | @flagged _ x f b hx _ =>
      have hne : vf ≠ x := by simpa [hx] using hdest
      rw [State.reg_setFlagThenReg, if_neg hne, if_pos rfl]
      exact flagByte_eq_zero_or_one f
    | draw x y n hit fb =>
      change (s.setReg vf (flagByte hit)).reg vf = _ ∨ (s.setReg vf (flagByte hit)).reg vf = _
      rw [State.reg_setReg_self]
      exact flagByte_eq_zero_or_one hit
    | skip b hpc hno | reg b hx hno => rw [hno] at hflag; cases hflag
    | index w hi => obtain ⟨a, rfl⟩ | ⟨x, rfl | rfl⟩ := hi <;> cases hflag
    | store bs hi => obtain ⟨x, rfl | rfl⟩ := hi <;> cases hflag
    | _ => cases hflag

/-! ### Who writes the special state (10_state.md R17 to R25) -/

theorem exec_keeps_i {i : Instr} {s t : State} (h : exec i s = .next t)
    (hldI : ∀ a, i ≠ .ldI a) (haddI : ∀ x, i ≠ .addI x) (hldF : ∀ x, i ≠ .ldF x) : t.i = s.i :=
  exec_keeps State.i (fun _ _ => rfl) h fun u hw => by
    cases hw with
    | index w hi =>
      obtain ⟨a, rfl⟩ | ⟨x, rfl | rfl⟩ := hi
      · exact absurd rfl (hldI a)
      · exact absurd rfl (haddI x)
      · exact absurd rfl (hldF x)
    | _ => rfl

theorem exec_keeps_stack {i : Instr} {s t : State} (h : exec i s = .next t)
    (hcall : ∀ a, i ≠ .call a) : t.stack = s.stack :=
  exec_keeps State.stack (fun _ _ => rfl) h fun u hw => by
    cases hw with
    | call a => exact absurd rfl (hcall a)
    | _ => rfl

theorem exec_keeps_dt {i : Instr} {s t : State} (h : exec i s = .next t)
    (hdelay : ∀ x, i ≠ .ldDtVx x) : t.dt = s.dt :=
  exec_keeps State.dt (fun _ _ => rfl) h fun u hw => by
    cases hw with
    | delay x => exact absurd rfl (hdelay x)
    | _ => rfl

theorem exec_keeps_st {i : Instr} {s t : State} (h : exec i s = .next t)
    (hsound : ∀ x, i ≠ .ldStVx x) : t.st = s.st :=
  exec_keeps State.st (fun _ _ => rfl) h fun u hw => by
    cases hw with
    | sound x => exact absurd rfl (hsound x)
    | _ => rfl

theorem exec_keeps_mem {i : Instr} {s t : State} (h : exec i s = .next t)
    (hldB : ∀ x, i ≠ .ldB x) (hstore : ∀ x, i ≠ .storeRegs x) : t.mem = s.mem :=
  exec_keeps State.mem (fun _ _ => rfl) h fun u hw => by
    cases hw with
    | store bs hi =>
      obtain ⟨x, rfl | rfl⟩ := hi
      · exact absurd rfl (hldB x)
      · exact absurd rfl (hstore x)
    | _ => rfl

theorem exec_keeps_rndCount {i : Instr} {s t : State} (h : exec i s = .next t)
    (hrnd : ∀ x nn, i ≠ .rnd x nn) : t.rndCount = s.rndCount :=
  exec_keeps State.rndCount (fun _ _ => rfl) h fun u hw => by
    cases hw with
    | random x nn b => exact absurd rfl (hrnd x nn)
    | _ => rfl

theorem exec_keeps_key {i : Instr} {s t : State} (h : exec i s = .next t) : t.key = s.key :=
  exec_keeps State.key (fun _ _ => rfl) h fun u hw => by
    cases hw <;> rfl

/-- Settles O31: each field is changed by one kind of write, and that kind belongs to the named
writers. -/
theorem specialStateHasOnlyItsNamedWriters : Obligations.SpecialStateHasOnlyItsNamedWriters :=
  fun _ _ _ h => ⟨exec_keeps_i h, exec_keeps_stack h, exec_keeps_dt h, exec_keeps_st h,
    exec_keeps_mem h, fun hcls hdrw =>
      ⟨(exec_keeps_display hcls hdrw h).fb, (exec_keeps_display hcls hdrw h).draw⟩,
    exec_keeps_rndCount h, exec_keeps_key h⟩

end Sys2Proof.Machine

namespace Sys2Proof.Machine

/-! ### The invariant (10_state.md R14, R18, R19) -/

/-- The invariant speaks of memory, PC and the stack only. -/
theorem State.Inv.congr {s t : State} (hs : s.Inv) (hmem : t.mem = s.mem)
    (hpc : t.pc.toNat ≤ 0x10FE) (hstack : t.stack = s.stack) (hsp : t.sp = s.sp) : t.Inv where
  mem := by rw [hmem, hs.mem]
  pc := hpc
  stack := by rw [hstack, hsp]; exact hs.stack

/-- Settles O23: reset memory lists nothing, and the stack is empty. -/
theorem resetMeetsTheInvariant : Obligations.ResetMeetsTheInvariant where
  mem := Memory.wf_nil
  pc := by decide
  stack := fun j hj => absurd hj (Nat.not_lt_zero j.val)

/-- The advance does not wrap where a fetch succeeded (R15). -/
theorem State.advance_pc_toNat {s : State} (h : s.pc.toNat ≤ 0x0FFE) :
    s.advance.pc.toNat = s.pc.toNat + 2 := by
  rw [State.advance_pc, BitVec.toNat_add]
  simp
  omega

/-- Where PC can be after an execution (40_control_flow.md R88): near where it was, at an address of
memory, where JP V0 leads, or at the entry a RET restores. -/
theorem exec_pc_cases {i : Instr} {s t : State} (h : exec i s = .next t) :
    (t.pc = s.pc ∨ t.pc = s.pc + 2 ∨ t.pc = s.pc - 2) ∨ t.pc.toNat ≤ 0x0FFF ∨
    (∃ addr, i = .jpV0 addr ∧ t.pc.toNat ≤ 0x10FE) ∨
    (i = .ret ∧ ∃ j : Fin 16, j.val + 1 = s.sp.val ∧ t.pc = s.stack[j]) := by
  cases effect_of_exec h with
  | fails hf => exact .inl (.inl rfl)
  | completes hw =>
    rw [State.report_pc]
    cases hw with
    | skip b =>
      left
      cases b
      · exact .inl rfl
      · exact .inr (.inl rfl)
    | wait x => exact .inl (.inr (.inr rfl))
    | jp addr | call addr =>
      have htarget : (zext16 addr).toNat ≤ 0x0FFF := by
        rw [zext16_toNat (by decide)]
        omega
      exact .inr (.inl htarget)
    | jpV0 addr =>
      refine .inr (.inr (.inl ⟨addr, rfl, ?_⟩))
      rw [State.jump_pc, jpV0_target_toNat]
      omega
    | ret hpos =>
      exact .inr (.inr (.inr ⟨rfl, ⟨s.sp.val - 1, by omega⟩, Nat.sub_add_cancel hpos, rfl⟩))
    | _ => exact .inl (.inl rfl)

theorem exec_mem_wf {i : Instr} {s t : State} (hs : s.mem.wf = true) (h : exec i s = .next t) :
    t.mem.wf = true := by
  cases effect_of_exec h with
  | fails hf => exact hs
  | completes hw =>
    cases hw with
    | store bs hi hfit => exact Memory.wf_writeBytes hs hfit
    | _ => exact hs

/-- The return addresses in use stay at most 0x1000 where the one a CALL pushes is. -/
theorem exec_stack_bound {i : Instr} {s t : State} (hpc : s.pc.toNat ≤ 0x1000)
    (hs : ∀ j : Fin 16, j.val < s.sp.val → s.stack[j].toNat ≤ 0x1000) (h : exec i s = .next t) :
    ∀ j : Fin 16, j.val < t.sp.val → t.stack[j].toNat ≤ 0x1000 := by
  cases effect_of_exec h with
  | fails hf => exact hs
  | completes hw =>
    cases hw with
    | ret hpos => exact fun j hj => hs j (Nat.lt_of_lt_of_le hj (Nat.sub_le _ 1))
    | call addr hroom =>
      intro j hj
      change (s.stack.set s.sp.val s.pc)[j].toNat ≤ 0x1000
      rw [stack_set_getElem s.stack s.pc hroom]
      split_ifs with hjs
      · exact hpc
      · exact hs j (Nat.lt_of_le_of_ne (Nat.le_of_lt_succ hj) hjs)
    | _ => exact hs

/-- An execution begun with PC just past a fetch keeps the invariant. -/
theorem exec_inv {i : Instr} {s t : State} (hs : s.Inv) (hlow : 2 ≤ s.pc.toNat)
    (hhigh : s.pc.toNat ≤ 0x1000) (h : exec i s = .next t) : t.Inv where
  mem := exec_mem_wf hs.mem h
  stack := exec_stack_bound hhigh hs.stack h
  pc := by
    rcases exec_pc_cases h with (hpc | hpc | hpc) | hpc | ⟨addr, -, hpc⟩ | ⟨-, j, hj, hpc⟩
    · rw [hpc]; omega
    · rw [hpc]; bv_omega
    · rw [hpc]; bv_omega
    · omega
    · exact hpc
    · have := hs.stack j (by omega)
      rw [hpc]; omega

theorem State.Inv.advance {s : State} (hs : s.Inv) (hpc : s.pc.toNat ≤ 0x0FFE) : s.advance.Inv :=
  hs.congr rfl (by rw [State.advance_pc_toNat hpc]; omega) rfl rfl

/-- Settles O24: a failed fetch leaves PC and an undecodable word puts it at A + 2, which a fetch
bounds by 0x1000; an executed instruction keeps the invariant from there. -/
theorem everyStepKeepsTheInvariant : Obligations.EveryStepKeepsTheInvariant := by
  intro s t hs hstep
  rcases step_cases hstep with ⟨-, rfl⟩ | ⟨w, r, hf, -, rfl⟩ | ⟨w, i, u, hf, -, hexec, rfl⟩
  · exact hs.congr rfl hs.pc rfl rfl
  · have hadv := hs.advance (fetchWord_some_pc s hf)
    exact hadv.congr rfl hadv.pc rfl rfl
  · have hpc := fetchWord_some_pc s hf
    have hnext := State.advance_pc_toNat hpc
    have hu : u.Inv := exec_inv (hs.advance hpc) (by omega) (by omega) hexec
    exact hu.congr rfl hu.pc rfl rfl

/-! ### Sessions (70_reset_and_hazards.md R212) -/

theorem hostReset_inv (s : State) : (hostReset s).Inv :=
  resetMeetsTheInvariant.congr rfl resetMeetsTheInvariant.pc rfl rfl

theorem load_inv (bytes : List Byte) {s : State} (hs : s.Inv) : (load bytes s).2.Inv := by
  by_cases h : bytes.length ≤ 3584
  · rw [load_of_le h]
    exact ⟨Memory.wf_writeBytes hs.mem (by omega), hs.pc, hs.stack⟩
  · rw [load_of_gt (by omega)]
    exact hs

theorem applyMove_inv (m : Move) {s : State} (hs : s.Inv) :
    ∃ t, applyMove m s = .next t ∧ t.Inv := by
  cases m with
  | step =>
    obtain ⟨t, ht⟩ := exists_step s
    exact ⟨t, ht, everyStepKeepsTheInvariant s t hs ht⟩
  | reset => exact ⟨_, rfl, hostReset_inv s⟩
  | load bytes => exact ⟨_, rfl, load_inv bytes hs⟩
  | setKey k pressed => exact ⟨_, rfl, hs.congr rfl hs.pc rfl rfl⟩
  | drawConsume => exact ⟨_, rfl, hs.congr rfl hs.pc rfl rfl⟩

/-- Settles O25, by induction on the list of moves. -/
theorem everySessionKeepsTheInvariant : Obligations.EverySessionKeepsTheInvariant := by
  intro moves
  induction moves with
  | nil => exact fun s hs => ⟨s, rfl, hs⟩
  | cons m ms ih =>
    intro s hs
    obtain ⟨t, ht, hinv⟩ := applyMove_inv m hs
    obtain ⟨u, hu, hu'⟩ := ih t hinv
    exact ⟨u, by rw [applyMoves, ht]; exact hu, hu'⟩

/-- Settles O20: of what an execution can do to PC, staying near it keeps it at most four above A,
and a target inside memory is not above it. -/
theorem pcAboveMemoryComesOnlyFromThreeSources :
    Obligations.PcAboveMemoryComesOnlyFromThreeSources := by
  refine ⟨fun s t hpc hstep => ?_, fun s t hpc hstep habove => ?_⟩
  · rw [step_of_fetch_none ((fetchWord_none s).2 hpc)] at hstep
    cases hstep
    exact ⟨rfl, _, rfl⟩
  · have hnext := State.advance_pc_toNat hpc
    rcases step_cases hstep with ⟨hf, rfl⟩ | ⟨w, r, hf, -, rfl⟩ | ⟨w, i, u, hf, hd, hexec, rfl⟩
    · exact absurd ((fetchWord_none s).1 hf) (by omega)
    · have hpc' : (s.advance.report (.decodeError w s.pc)).timerPass.pc = s.advance.pc := rfl
      rw [hpc'] at habove ⊢
      exact .inr (.inl (by omega))
    · have hi : nextInstr s = some i := nextInstr_eq_some.2 ⟨w, hf, hd⟩
      rw [State.timerPass_pc] at habove ⊢
      rw [hi]
      rcases exec_pc_cases hexec with (h | h | h) | h | ⟨addr, rfl, h⟩ | ⟨rfl, j, hj, h⟩
      · rw [h] at habove ⊢; exact .inr (.inl (by omega))
      · rw [h] at habove ⊢; exact .inr (.inl (by bv_omega))
      · rw [h] at habove ⊢; exact .inr (.inl (by bv_omega))
      · omega
      · exact .inl ⟨addr, rfl, h⟩
      · exact .inr (.inr ⟨rfl, j, hj, h⟩)

end Sys2Proof.Machine

namespace Sys2Proof.Machine

/-! ### Updates that an instruction does not see (10_state.md R18, R24; 43_display.md R142;
60_exceptions.md R186) -/

/-- The two instructions that read or write a stack entry. -/
def touchesStack : Instr → Bool
  | .ret | .call _ => true
  | _ => false

/-- The two instructions that read or write the framebuffer or the redraw flag. -/
def touchesDisplay : Instr → Bool
  | .cls | .drw _ _ _ => true
  | _ => false

/-- The stack entries, the framebuffer, the redraw flag and the key levels, each replaced by a
function of its own. -/
def State.overlay (k : Vector Word 16 → Vector Word 16) (f : Framebuffer → Framebuffer)
    (d : Bool → Bool) (l : Vector Bool 16 → Vector Bool 16) (s : State) : State :=
  { s with stack := k s.stack, fb := f s.fb, draw := d s.draw, key := l s.key }

section
variable (k : Vector Word 16 → Vector Word 16) (f : Framebuffer → Framebuffer) (d : Bool → Bool)
  (l : Vector Bool 16 → Vector Bool 16) (s : State)

theorem raise_overlay (cause : Word → Status) :
    raise cause (s.overlay k f d l) = mapNext (State.overlay k f d l) (raise cause s) := rfl

theorem finish_skipIf_overlay (b : Bool) :
    finish ((s.overlay k f d l).skipIf b) =
      mapNext (State.overlay k f d l) (finish (s.skipIf b)) := by
  cases b <;> rfl

theorem exec_ret_overlay :
    exec .ret (s.overlay id f d l) = mapNext (State.overlay id f d l) (exec .ret s) := by
  by_cases h : 0 < s.sp.val
  · rw [exec_ret_of_pos h, exec_ret_of_pos (s := s.overlay id f d l) h]
    rfl
  · have hempty : s.sp.val = 0 := by omega
    rw [exec_ret_of_empty hempty, exec_ret_of_empty (s := s.overlay id f d l) hempty]
    rfl

theorem exec_call_overlay (addr : BitVec 12) :
    exec (.call addr) (s.overlay id f d l) =
      mapNext (State.overlay id f d l) (exec (.call addr) s) := by
  by_cases h : s.sp.val < 16
  · rw [exec_call_of_lt addr h, exec_call_of_lt (s := s.overlay id f d l) addr h]
    rfl
  · have hfull : s.sp.val = 16 := by omega
    rw [exec_call_of_full addr hfull, exec_call_of_full (s := s.overlay id f d l) addr hfull]
    rfl

theorem exec_ldVxK_overlay (x : Reg) :
    exec (.ldVxK x) (s.overlay k f d id) =
      mapNext (State.overlay k f d id) (exec (.ldVxK x) s) := by
  cases h : firstPressed s.key with
  | none =>
    rw [exec_ldVxK_of_none x h, exec_ldVxK_of_none (s := s.overlay k f d id) x h]
    rfl
  | some j =>
    rw [exec_ldVxK_of_some x h, exec_ldVxK_of_some (s := s.overlay k f d id) x h]
    rfl

/-- Of these four an instruction does not see, and does not change, those that are not its own. -/
theorem exec_overlay {i : Instr} (hstack : touchesStack i = true → k = id)
    (hdisplay : touchesDisplay i = true → f = id ∧ d = id) (hkey : seesKeys i = true → l = id) :
    exec i (s.overlay k f d l) = mapNext (State.overlay k f d l) (exec i s) := by
  cases i with
  | ret =>
    obtain rfl := hstack rfl
    exact exec_ret_overlay f d l s
  | call addr =>
    obtain rfl := hstack rfl
    exact exec_call_overlay f d l s addr
  | cls =>
    obtain ⟨rfl, rfl⟩ := hdisplay rfl
    rfl
  | drw x y n =>
    obtain ⟨rfl, rfl⟩ := hdisplay rfl
    exact withinMemory_mapNext (State.overlay k id id l) s (raise_overlay k id id l s) rfl
  | skp x =>
    obtain rfl := hkey rfl
    exact withKey_mapNext _ s rfl (raise_overlay k f d id s) fun b =>
      finish_skipIf_overlay k f d id s b
  | sknp x =>
    obtain rfl := hkey rfl
    exact withKey_mapNext _ s rfl (raise_overlay k f d id s) fun b =>
      finish_skipIf_overlay k f d id s !b
  | ldVxK x =>
    obtain rfl := hkey rfl
    exact exec_ldVxK_overlay k f d s x
  | ldB | storeRegs | loadRegs =>
    exact withinMemory_mapNext (State.overlay k f d l) s (raise_overlay k f d l s) rfl
  | seByte | sneByte | seReg | sneReg => exact finish_skipIf_overlay k f d l s _
  | jp | jpV0 | ldByte | addByte | ldReg | or | and | xor | addReg | sub | shr | subn | shl | rnd
  | ldI | addI | ldF | ldVxDt | ldDtVx | ldStVx => rfl

end

/-! ### The keypad (60_exceptions.md R186) -/

theorem step_keeps_key {s t : State} (hstep : step s = .next t) : t.key = s.key := by
  rcases step_cases hstep with ⟨-, rfl⟩ | ⟨w, r, -, -, rfl⟩ | ⟨w, i, u, -, -, hexec, rfl⟩
  · rfl
  · rfl
  · exact (exec_keeps_key hexec : u.key = s.advance.key)

/-- Settles O27: key levels are an overlay that only the three instructions see. -/
theorem keypadIsSeenByThreeInstructionsOnly : Obligations.KeypadIsSeenByThreeInstructionsOnly := by
  refine ⟨fun s t => step_keeps_key, fun i s t levels hkeys h => ?_⟩
  have hover := exec_overlay id id id (fun _ => levels) s (fun _ => rfl) (fun _ => ⟨rfl, rfl⟩)
    fun hsees => absurd (hkeys.symm.trans hsees) Bool.false_ne_true
  rw [h] at hover
  exact hover

/-! ### The display (43_display.md R142; 10_state.md R24) -/

/-- DRW sees the redraw flag neither where it fails nor where it sets it. -/
theorem exec_drw_setDraw (x y : Reg) (n : Fin 16) {s t : State} (dirty : Bool)
    (h : exec (.drw x y n) s = .next t) :
    ∃ d, exec (.drw x y n) { s with draw := dirty } = .next { t with draw := d } := by
  rcases withinMemory_cases h with ⟨hfit, hbody⟩ | ⟨hsome, hout, rfl⟩
  · cases hbody
    exact ⟨true, withinMemory_of_le { s with draw := dirty } _ hfit⟩
  · exact ⟨dirty, withinMemory_of_gt { s with draw := dirty } _ hsome hout⟩

theorem exec_setDraw {i : Instr} {s t : State} (dirty : Bool) (h : exec i s = .next t) :
    ∃ d, exec i { s with draw := dirty } = .next { t with draw := d } := by
  cases hi : touchesDisplay i with
  | false =>
    have hover := exec_overlay (i := i) id id (fun _ => dirty) id s (fun _ => rfl)
      (fun htouch => absurd (hi.symm.trans htouch) Bool.false_ne_true) fun _ => rfl
    rw [h] at hover
    exact ⟨dirty, hover⟩
  | true =>
    cases i with
    | cls =>
      cases h
      exact ⟨true, rfl⟩
    | drw x y n => exact exec_drw_setDraw x y n dirty h
    | _ => cases hi

theorem exec_setFb {i : Instr} {s t : State} (pixels : Framebuffer) (hdrw : ∀ x y n, i ≠ .drw x y n)
    (h : exec i s = .next t) : ∃ f, exec i { s with fb := pixels } = .next { t with fb := f } := by
  cases hi : touchesDisplay i with
  | false =>
    have hover := exec_overlay (i := i) id (fun _ => pixels) id id s (fun _ => rfl)
      (fun htouch => absurd (hi.symm.trans htouch) Bool.false_ne_true) fun _ => rfl
    rw [h] at hover
    exact ⟨pixels, hover⟩
  | true =>
    cases i with
    | cls =>
      cases h
      exact ⟨Framebuffer.clear, rfl⟩
    | drw x y n => exact absurd rfl (hdrw x y n)
    | _ => cases hi

/-- Settles O28: an instruction that does not touch the display sees neither half of it; CLS
overwrites both, and DRW sees the framebuffer only. -/
theorem framebufferIsSeenByDrawOnly : Obligations.FramebufferIsSeenByDrawOnly :=
  fun _ _ _ pixels dirty h => ⟨exec_setDraw dirty h, fun hdrw => exec_setFb pixels hdrw h⟩

/-! ### Stack entries at and above SP (10_state.md R18) -/

/-- `k` holds the entries of `s` that are in use. -/
def State.AgreesInUse (s : State) (k : Vector Word 16) : Prop :=
  ∀ j : Fin 16, j.val < s.sp.val → k[j] = s.stack[j]

/-- A CALL pushes the same entry on both stacks. -/
theorem exec_call_setStack (addr : BitVec 12) {s t : State} {k : Vector Word 16}
    (hk : s.AgreesInUse k) (h : exec (.call addr) s = .next t) :
    ∃ k', exec (.call addr) { s with stack := k } = .next { t with stack := k' } ∧
      t.AgreesInUse k' := by
  by_cases hroom : s.sp.val < 16
  · rw [exec_call_of_lt addr hroom] at h
    cases h
    refine ⟨k.set s.sp.val s.pc, exec_call_of_lt (s := { s with stack := k }) addr hroom,
      fun j hj => ?_⟩
    change (k.set s.sp.val s.pc)[j] = (s.stack.set s.sp.val s.pc)[j]
    rw [stack_set_getElem k s.pc hroom, stack_set_getElem s.stack s.pc hroom]
    split_ifs with hjs
    · rfl
    · exact hk j (Nat.lt_of_le_of_ne (Nat.le_of_lt_succ hj) hjs)
  · have hfull : s.sp.val = 16 := by omega
    rw [exec_call_of_full addr hfull] at h
    cases h
    exact ⟨k, exec_call_of_full (s := { s with stack := k }) addr hfull, hk⟩

/-- A RET pops an entry in use, which is the same in both stacks. -/
theorem exec_ret_setStack {s t : State} {k : Vector Word 16} (hk : s.AgreesInUse k)
    (h : exec .ret s = .next t) :
    ∃ k', exec .ret { s with stack := k } = .next { t with stack := k' } ∧ t.AgreesInUse k' := by
  by_cases hpos : 0 < s.sp.val
  · rw [exec_ret_of_pos hpos] at h
    cases h
    have htop : k[s.sp.val - 1] = s.stack[s.sp.val - 1] :=
      hk ⟨s.sp.val - 1, by omega⟩ (Nat.sub_lt hpos Nat.one_pos)
    refine ⟨k, ?_, fun j hj => hk j (Nat.lt_of_lt_of_le hj (Nat.sub_le _ 1))⟩
    rw [exec_ret_of_pos (s := { s with stack := k }) hpos]
    simp only [htop]
  · have hempty : s.sp.val = 0 := by omega
    rw [exec_ret_of_empty hempty] at h
    cases h
    exact ⟨k, exec_ret_of_empty (s := { s with stack := k }) hempty, hk⟩

theorem exec_setStack {i : Instr} {s t : State} {k : Vector Word 16} (hk : s.AgreesInUse k)
    (h : exec i s = .next t) :
    ∃ k', exec i { s with stack := k } = .next { t with stack := k' } ∧ t.AgreesInUse k' := by
  cases hi : touchesStack i with
  | false =>
    have hcall : ∀ a, i ≠ .call a := by rintro a rfl; cases hi
    have hret : i ≠ .ret := by rintro rfl; cases hi
    have hover := exec_overlay (i := i) (fun _ => k) id id id s
      (fun htouch => absurd (hi.symm.trans htouch) Bool.false_ne_true) (fun _ => ⟨rfl, rfl⟩)
      fun _ => rfl
    rw [h] at hover
    refine ⟨k, hover, ?_⟩
    rw [State.AgreesInUse, exec_keeps_sp hcall hret h, exec_keeps_stack h hcall]
    exact hk
  | true =>
    cases i with
    | call addr => exact exec_call_setStack addr hk h
    | ret => exact exec_ret_setStack hk h
    | _ => cases hi

theorem step_setStack {s t : State} {k : Vector Word 16} (hk : s.AgreesInUse k)
    (hstep : step s = .next t) :
    ∃ k', step { s with stack := k } = .next { t with stack := k' } ∧ t.AgreesInUse k' := by
  have hfetch : fetchWord { s with stack := k } = fetchWord s := rfl
  rcases step_cases hstep with ⟨hf, rfl⟩ | ⟨w, r, hf, hd, rfl⟩ | ⟨w, i, u, hf, hd, hexec, rfl⟩
  · exact ⟨k, step_of_fetch_none (hfetch.trans hf), hk⟩
  · exact ⟨k, step_of_undecoded (hfetch.trans hf) hd, hk⟩
  · obtain ⟨k', hk', hagree⟩ := exec_setStack (k := k) (s := s.advance) hk hexec
    refine ⟨k', ?_, hagree⟩
    have hadvance : ({ s with stack := k } : State).advance = { s.advance with stack := k } := rfl
    rw [step_of_decoded (hfetch.trans hf) hd, hadvance, hk']
    rfl

/-- Settles O26, by induction on the number of steps: after each step the two stacks agree again in
the entries in use. -/
theorem staleStackEntriesNeverInfluenceExecution :
    Obligations.StaleStackEntriesNeverInfluenceExecution := by
  intro n
  induction n with
  | zero =>
    intro s t k hk hrun
    cases hrun
    exact ⟨k, rfl, hk⟩
  | succ n ih =>
    intro s t k hk hrun
    obtain ⟨u, hu⟩ := exists_step s
    obtain ⟨k₁, hu₁, hk₁⟩ := step_setStack hk hu
    rw [core_run_succ n hu] at hrun
    rw [core_run_succ n hu₁]
    exact ih u t k₁ hk₁ hrun

end Sys2Proof.Machine

namespace Sys2Proof.Machine

/-! ### The step and its failures (60_exceptions.md R170, R175 to R178) -/

theorem decodeWord_of_decode {hi lo : Byte} {rest rest' : List Byte} {i : Instr}
    (h : decode (hi :: lo :: rest) = .ok (i, rest')) : decodeWord (joinBytes hi lo) = .ok i := by
  rw [decode] at h
  cases hd : decodeWord (joinBytes hi lo) with
  | error r => rw [hd] at h; cases h
  | ok j => rw [hd] at h; cases h; rfl

/-- Settles O13: the two bytes at PC are the fetched word. -/
theorem stepRunsTheDecodedInstruction : Obligations.StepRunsTheDecodedInstruction := by
  intro s t i hpc hdecode hexec
  have hadvance : exec i s.advance = .next t := hexec
  rw [step_of_decoded (fetchWord_of_le s hpc) (decodeWord_of_decode hdecode), hadvance,
    ← State.timerPass_eq]
  rfl

theorem legalWord_eq_false {w : Word} : legalWord w = false ↔ ∃ r, decodeWord w = .error r := by
  rw [← Bool.not_eq_true, legalWord_iff]
  cases decodeWord w <;> simp

/-- No execution is a DecodeError. -/
theorem exec_status_ne_decodeError {i : Instr} {s t : State} (h : exec i s = .next t)
    (op addr : Word) : t.status ≠ some (.decodeError op addr) := by
  cases effect_of_exec h with
  | fails hf => cases hf <;> simp
  | completes hw => simp

/-- Settles O18: an illegal word is one that does not decode, and of a step's three outcomes only
that one reports a DecodeError. -/
theorem decodeErrorExactlyForIllegalWords : Obligations.DecodeErrorExactlyForIllegalWords := by
  intro s t hstep
  constructor
  · constructor
    · rintro ⟨op, addr, hstatus⟩
      rcases step_cases hstep with ⟨-, rfl⟩ | ⟨w, r, hf, hd, rfl⟩ | ⟨w, i, u, -, -, hexec, rfl⟩
      · cases hstatus
      · exact ⟨w, hf, legalWord_eq_false.2 ⟨r, hd⟩⟩
      · exact absurd hstatus (exec_status_ne_decodeError hexec op addr)
    · rintro ⟨w, hf, hlegal⟩
      obtain ⟨r, hd⟩ := legalWord_eq_false.1 hlegal
      rw [step_of_undecoded hf hd] at hstep
      cases hstep
      exact ⟨w, s.pc, rfl⟩
  · intro w hf hlegal
    obtain ⟨r, hd⟩ := legalWord_eq_false.1 hlegal
    rw [step_of_undecoded hf hd] at hstep
    cases hstep
    exact State.timerPass_eq _

/-- Settles O19: the two failures of the stack as executions, with the advance before and the timer
pass after. -/
theorem stackFailuresLeaveTheStackAlone : Obligations.StackFailuresLeaveTheStackAlone := by
  constructor
  · intro s addr hi hfull
    have hfull' : s.advance.sp.val = 16 := congrArg Fin.val hfull
    rw [step_of_nextInstr hi, exec_call_of_full addr hfull', State.advance_pc_sub_two]
    exact congrArg Host.Outcome.next (State.timerPass_eq _)
  · intro s hi hempty
    have hempty' : s.advance.sp.val = 0 := congrArg Fin.val hempty
    rw [step_of_nextInstr hi, exec_ret_of_empty hempty', State.advance_pc_sub_two]
    exact congrArg Host.Outcome.next (State.timerPass_eq _)

/-! ### The timers (60_exceptions.md R183, R184) -/

theorem step_dt {s t : State} (hstep : step s = .next t)
    (hdelay : ∀ x, nextInstr s ≠ some (.ldDtVx x)) : t.dt.toNat = s.dt.toNat - 1 := by
  rcases step_cases hstep with ⟨-, rfl⟩ | ⟨w, r, -, -, rfl⟩ | ⟨w, i, u, hf, hd, hexec, rfl⟩
  · exact tick_toNat s.dt
  · exact tick_toNat s.dt
  · have hi : nextInstr s = some i := nextInstr_eq_some.2 ⟨w, hf, hd⟩
    have hu : u.dt = s.advance.dt := exec_keeps_dt hexec fun x hx => hdelay x (hx ▸ hi)
    rw [State.timerPass_dt, tick_toNat, hu, State.advance_dt]

theorem step_st {s t : State} (hstep : step s = .next t)
    (hsound : ∀ x, nextInstr s ≠ some (.ldStVx x)) : t.st.toNat = s.st.toNat - 1 := by
  rcases step_cases hstep with ⟨-, rfl⟩ | ⟨w, r, -, -, rfl⟩ | ⟨w, i, u, hf, hd, hexec, rfl⟩
  · exact tick_toNat s.st
  · exact tick_toNat s.st
  · have hi : nextInstr s = some i := nextInstr_eq_some.2 ⟨w, hf, hd⟩
    have hu : u.st = s.advance.st := exec_keeps_st hexec fun x hx => hsound x (hx ▸ hi)
    rw [State.timerPass_st, tick_toNat, hu, State.advance_st]

/-- Settles O21: the timer pass ends every step, and before it only LD DT and LD ST write a
timer. -/
theorem timersCountDownOncePerStep : Obligations.TimersCountDownOncePerStep :=
  fun _ _ hstep => ⟨step_dt hstep, fun _ hi => step_ldDtVx hstep hi, step_st hstep,
    fun _ hi => (step_ldStVx hstep hi).1⟩

/-! ### The idle loop (70_reset_and_hazards.md R205) -/

theorem nextInstr_congr {s t : State} (hpc : t.pc = s.pc) (hmem : t.mem = s.mem) :
    nextInstr t = nextInstr s := by
  simp only [nextInstr, fetchWord, hpc, hmem]

/-- `s` after `n` timer passes, the last step having returned OK. -/
def State.idled (s : State) (n : Nat) : State := { s with
  dt := BitVec.ofNat 8 (s.dt.toNat - n), st := BitVec.ofNat 8 (s.st.toNat - n), status := some .ok }

theorem State.idle.idled {s : State} (h : s.idle) (n : Nat) : (s.idled n).idle := by
  obtain ⟨addr, hi, haddr⟩ := h
  exact ⟨addr, (nextInstr_congr rfl rfl).trans hi, haddr⟩

/-- The jump leads back to where it stands. -/
theorem step_of_idle {s : State} (h : s.idle) : step s = .next (s.idled 1) := by
  obtain ⟨addr, hi, haddr⟩ := h
  have htarget : zext16 addr = s.pc :=
    BitVec.eq_of_toNat_eq ((zext16_toNat (by decide) addr).trans haddr)
  rw [step_of_nextInstr hi, exec_jp, htarget]
  exact congrArg Host.Outcome.next (State.timerPass_eq _)

/-- Counting down by 1 and then by `n`. -/
theorem State.idled_idled (s : State) (m n : Nat) : (s.idled m).idled n = s.idled (m + n) := by
  have hcount (t : Byte) :
      BitVec.ofNat 8 ((BitVec.ofNat 8 (t.toNat - m)).toNat - n) =
        BitVec.ofNat 8 (t.toNat - (m + n)) := by
    have ht := t.isLt
    rw [BitVec.toNat_ofNat, Nat.mod_eq_of_lt (by omega), Nat.sub_sub]
  simp only [State.idled, hcount]

/-- Settles O22, by induction on the number of steps: an idle state steps to an idle state. -/
theorem idleLoopChangesOnlyTheTimers : Obligations.IdleLoopChangesOnlyTheTimers := by
  intro n
  induction n with
  | zero =>
    intro s h
    rw [core_run_succ 0 (step_of_idle h)]
    rfl
  | succ n ih =>
    intro s h
    rw [core_run_succ (n + 1) (step_of_idle h), ih _ (h.idled 1)]
    change Host.Outcome.next ((s.idled 1).idled (n + 1)) = .next (s.idled (n + 1 + 1))
    rw [State.idled_idled, Nat.add_comm 1]

/-! ### Reset and load (70_reset_and_hazards.md R200, R206 to R208) -/

theorem fbRead_hostReset (s : State) (p : Fin 2048) : fbRead p (hostReset s) = false :=
  fbRead_of_fb_clear (t := hostReset s) rfl p

theorem reg_hostReset (s : State) (r : Reg) : (hostReset s).reg r = 0 :=
  Vector.getElem_replicate r.isLt

/-- The glyph table stands at 0x050 to 0x09F, and the rest is zero. -/
theorem memRead_hostReset (s : State) (a : Fin 4096) : memRead a (hostReset s) =
    if 0x050 ≤ a.val ∧ a.val ≤ 0x09F then glyphTable.getD (a.val - 0x050) 0 else 0 := by
  have hrange : (0x050 ≤ a.val ∧ a.val < 0x050 + 80) ↔ (0x050 ≤ a.val ∧ a.val ≤ 0x09F) := by omega
  exact if_congr hrange rfl rfl

/-- Settles O9: `hostReset` takes from the earlier state the key levels and the random count only,
and its memory lists nothing. -/
theorem resetStateWhateverCameBefore : Obligations.ResetStateWhateverCameBefore := by
  refine fun s => ⟨reg_hostReset s, rfl, rfl, rfl, rfl, rfl, fbRead_hostReset s, rfl, rfl,
    memRead_hostReset s, rfl, fun s' hkey hcount => ?_, rfl⟩
  simp only [hostReset, hkey, hcount]

theorem Memory.wf_load {p : List Byte} {s : State} (hp : p.length ≤ 3584) (h : s.mem.wf = true) :
    (load p s).2.mem.wf = true := by
  rw [load_of_le hp]
  exact Memory.wf_writeBytes h (by omega)

/-- Memory after a load. -/
theorem read_load {p : List Byte} {s : State} (hp : p.length ≤ 3584) (h : s.mem.wf = true)
    (a : Nat) : (load p s).2.mem.read a =
      if 0x200 ≤ a ∧ a < 0x200 + p.length then p.getD (a - 0x200) 0 else s.mem.read a := by
  rw [load_of_le hp]
  exact Memory.read_writeBytes h (by omega) a

/-- Loading an image again changes nothing: the two canonical memories read alike. -/
theorem load_load_self {p : List Byte} {s : State} (hp : p.length ≤ 3584) (h : s.mem.wf = true) :
    load p (load p s).2 = (.ok, (load p s).2) := by
  have hwf := Memory.wf_load hp h
  have hmem : (load p (load p s).2).2.mem = (load p s).2.mem := by
    refine Memory.ext (Memory.wf_load hp hwf) hwf fun a => ?_
    rw [read_load hp hwf, read_load hp h]
    split_ifs <;> rfl
  rw [load_of_le hp] at hmem ⊢
  exact congrArg (fun m => (LoadResult.ok, ({ (load p s).2 with mem := m } : State))) hmem

/-- Settles O11, by what a load does to each byte. -/
theorem loadWritesOnlyTheImage : Obligations.LoadWritesOnlyTheImage := by
  intro p q s h hp hq
  refine ⟨?_, fun a ha => ?_, load_load_self hp h, fun a => ?_⟩
  · rw [load_of_le hp]
    rfl
  · rw [read_load hp h, if_neg (by omega)]
  · rw [read_load hq (Memory.wf_load hp h), read_load hp h]

/-! ### Placing a word (log 9, log 10) -/

theorem decodeWord_of_decodeTableWord {w : Nat} {i : Instr}
    (h : decodeTableWord 16 w = some i) : decodeWord (BitVec.ofNat 16 w) = .ok i := by
  unfold decodeTableWord at h
  split_ifs at h
  split at h
  · next j rest hd =>
    cases h
    simpa using decodeWord_of_decode hd
  · cases h

/-- A word stored at PC is the word fetched there. -/
theorem fetchWord_storeBytes {s : State} (hwf : s.mem.wf = true) (hpc : s.pc.toNat ≤ 0x0FFE)
    (w : Word) : fetchWord (s.storeBytes s.pc.toNat [hiByte w, loByte w]) = some w := by
  rw [fetchWord_of_le (s.storeBytes s.pc.toNat [hiByte w, loByte w]) hpc]
  have hread := Memory.read_writeBytes hwf (a := s.pc.toNat) (bs := [hiByte w, loByte w])
    (by simp; omega)
  simp [hread]

theorem withFetchWord_of_le {s : State} (hpc : s.pc.toNat ≤ 0x0FFE) (nbits w : Nat) :
    s.withFetchWord nbits w = s.storeBytes s.pc.toNat
      [hiByte (BitVec.ofNat 16 w), loByte (BitVec.ofNat 16 w)] := by
  simp only [State.withFetchWord, if_pos hpc]

theorem withFetchWord_of_gt {s : State} (hpc : ¬ s.pc.toNat ≤ 0x0FFE) (nbits w : Nat) :
    s.withFetchWord nbits w = (s.jump 0x0200).withFetchWord nbits w := by
  rw [withFetchWord_of_le (s := s.jump 0x0200) (by simp)]
  simp only [State.withFetchWord, if_neg hpc]

theorem nextInstr_withFetchWord {s : State} {w : Nat} {i : Instr} (hwf : s.mem.wf = true)
    (hpc : s.pc.toNat ≤ 0x0FFE) (hi : decodeTableWord 16 w = some i) :
    nextInstr (s.withFetchWord 16 w) = some i := by
  rw [withFetchWord_of_le hpc]
  exact nextInstr_eq_some.2
    ⟨_, fetchWord_storeBytes hwf hpc _, decodeWord_of_decodeTableWord hi⟩

/-- Settles O14: where a fetch can start at PC the word is stored there, and else PC is first moved
to a place where one can. -/
theorem placedWordIsFetchedNext : Obligations.PlacedWordIsFetchedNext := by
  intro s w i hwf hi
  refine ⟨?_, fun hpc => ⟨?_, fun a ha ha' => ?_⟩⟩
  · by_cases hpc : s.pc.toNat ≤ 0x0FFE
    · exact nextInstr_withFetchWord hwf hpc hi
    · rw [withFetchWord_of_gt hpc]
      exact nextInstr_withFetchWord (s := s.jump 0x0200) hwf (by simp) hi
  · rw [withFetchWord_of_le hpc]
    rfl
  · rw [withFetchWord_of_le hpc, State.storeBytes_mem, Memory.read_writeBytes hwf (by simp; omega),
      if_neg (by simp; omega)]

end Sys2Proof.Machine

namespace Sys2Proof.Machine

/-! ### CALL and the RET that matches it (40_control_flow.md R80, R82) -/

/-- Settles O36: RET pops the entry SP - 1, which is the one the CALL wrote. -/
theorem retResumesAfterItsCall : Obligations.RetResumesAfterItsCall := by
  intro addr s t u hroom hcall husp hustack
  rw [exec_call_of_lt addr hroom] at hcall
  cases hcall
  have hsp : u.sp.val = s.sp.val + 1 := congrArg Fin.val husp
  have htop : u.stack[u.sp.val - 1]'(by omega) = s.pc := by
    have hj := hustack ⟨s.sp.val, hroom⟩ (Nat.lt_succ_self _)
    simp only [hsp, Nat.add_sub_cancel]
    exact hj.trans (by simp)
  exact ⟨_, exec_ret_of_pos (by omega), rfl, htop, Fin.ext (by simp [hsp])⟩

/-- Settles O38: the two instructions are the skip on equality and the skip on difference of Vx and
Vy. -/
theorem registerSkipsCompareTwoRegisters : Obligations.RegisterSkipsCompareTwoRegisters :=
  ⟨seReg_decodesTo, sneReg_decodesTo, fun x y s =>
    ⟨finish_skipIf_beq s (s.reg x) (s.reg y), finish_skipIf_bne s (s.reg x) (s.reg y)⟩⟩

/-! ### The key skips (44_keypad_timers.md R150, R151) -/

/-- Settles O55, by the two cases of a read of a key by number. -/
theorem keySkipsTestTheSampledLevel : Obligations.KeySkipsTestTheSampledLevel := by
  refine ⟨skp_decodesTo, sknp_decodesTo, fun x s => ⟨fun k hk => ?_, fun hout => ?_⟩⟩
  · have hlt : (s.reg x).toNat < 16 := hk ▸ k.isLt
    have hlevel : s.key[(s.reg x).toNat] = s.key[k] := by simp [hk]
    rw [exec_skp, exec_sknp, withKey_of_lt s _ hlt, withKey_of_lt s _ hlt, hlevel, finish_skipIf,
      finish_skipIf]
    cases s.key[k] <;> exact ⟨rfl, rfl⟩
  · rw [exec_skp, exec_sknp, withKey_of_ge s _ hout, withKey_of_ge s _ hout]
    exact ⟨rfl, rfl⟩

/-! ### The flag writers of the ALU (41_alu.md R106 to R110) -/

/-- An instruction that ends by writing `f` to VF and then `b` to `Vx` returns OK, leaves in `Vx`
whatever holds of `b` and in VF, where that is another register, whatever holds of `f`, and changes
nothing else. -/
theorem finish_setFlagThenReg (s : State) (x : Reg) {f b : Byte} (P Q : Byte → Prop) (hb : P b)
    (hf : Q f) :
    ∃ t, finish (s.setFlagThenReg f x b) = .next t ∧ t = { s with v := t.v, status := some .ok } ∧
      P (t.reg x) ∧ (x ≠ vf → Q (t.reg vf)) ∧ ∀ r, r ≠ x → r ≠ vf → t.reg r = s.reg r := by
  refine ⟨_, finish_eq _, rfl, ?_, fun hx => ?_, fun r hrx hrf => ?_⟩
  · rwa [State.reg_report, State.reg_setFlagThenReg, if_pos rfl]
  · rwa [State.reg_report, State.reg_setFlagThenReg, if_neg hx.symm, if_pos rfl]
  · rw [State.reg_report, State.reg_setFlagThenReg, if_neg hrx, if_neg hrf]

/-- Settles O41: the carry is bit 8 of the 9-bit sum and the result its low byte. -/
theorem addRegistersSumAndCarry : Obligations.AddRegistersSumAndCarry :=
  ⟨addReg_decodesTo, fun x y s => finish_setFlagThenReg s x
    (·.toNat = ((s.reg x).toNat + (s.reg y).toNat) % 256)
    (·.toNat = if (s.reg x).toNat + (s.reg y).toNat > 255 then 1 else 0)
    (sum9_low_toNat _ _) (carryFlag_toNat _ _)⟩

theorem byte_sub_toNat (a b : Byte) : (a - b).toNat = (a.toNat + 256 - b.toNat) % 256 := by
  bv_omega

/-- Settles O42: each writes not-borrow and then its difference, the one to Vx and the other to
Vy. -/
theorem subtractionsDifferenceAndNotBorrow : Obligations.SubtractionsDifferenceAndNotBorrow :=
  ⟨sub_decodesTo, subn_decodesTo, fun x y s =>
    ⟨finish_setFlagThenReg s x
        (·.toNat = ((s.reg x).toNat + 256 - (s.reg y).toNat) % 256)
        (·.toNat = if (s.reg x).toNat ≥ (s.reg y).toNat then 1 else 0)
        (byte_sub_toNat _ _) (notBorrowFlag_toNat _ _),
      finish_setFlagThenReg s y
        (·.toNat = ((s.reg y).toNat + 256 - (s.reg x).toNat) % 256)
        (·.toNat = if (s.reg y).toNat ≥ (s.reg x).toNat then 1 else 0)
        (byte_sub_toNat _ _) (notBorrowFlag_toNat _ _)⟩⟩

/-- The bit a left shift shifts out is set from 128 on. -/
theorem shiftOutLeft_toNat_eq_ite (a : Byte) :
    (shiftOutLeft a).toNat = if a.toNat ≥ 128 then 1 else 0 := by
  have ha := a.isLt
  rw [shiftOutLeft_toNat]
  split_ifs <;> omega

theorem byte_shiftRight_one_toNat (a : Byte) : (a >>> 1).toNat = a.toNat / 2 := by
  rw [BitVec.toNat_ushiftRight, Nat.shiftRight_one]

theorem byte_shiftLeft_one_toNat (a : Byte) : (a <<< 1).toNat = a.toNat * 2 % 256 := by
  rw [BitVec.toNat_shiftLeft, Nat.shiftLeft_eq]

/-- Settles O43: each writes the bit shifted out and then the shifted value. -/
theorem shiftsMoveOneBitIntoVf : Obligations.ShiftsMoveOneBitIntoVf :=
  ⟨shr_decodesTo, shl_decodesTo, fun x s =>
    ⟨finish_setFlagThenReg s x (·.toNat = (s.reg x).toNat / 2)
        (·.toNat = (s.reg x).toNat % 2) (byte_shiftRight_one_toNat _) (shiftOutRight_toNat _),
      finish_setFlagThenReg s x (·.toNat = (s.reg x).toNat * 2 % 256)
        (·.toNat = if (s.reg x).toNat ≥ 128 then 1 else 0)
        (byte_shiftLeft_one_toNat _) (shiftOutLeft_toNat_eq_ite _)⟩⟩

/-! ### RND (41_alu.md R112) -/

/-- No bit outside the mask survives the mask. -/
theorem and_and_not_self (b nn : Byte) : b &&& nn &&& ~~~nn = 0 := by
  rw [BitVec.and_assoc, BitVec.and_not_self]
  exact BitVec.and_zero

/-- Settles O44: the byte written is masked, and the draw before it moves the count only. -/
theorem randomByteIsFreeAndMasked : Obligations.RandomByteIsFreeAndMasked := by
  refine ⟨rnd_decodesTo, fun x nn s => ?_⟩
  obtain ⟨t, ht, hframe, ⟨hbyte, hmask⟩, hothers⟩ := finish_setReg s.drawRnd.2 x
    (fun b => b = Config.rnd8 s.rndCount &&& nn ∧ b &&& ~~~nn = 0) ⟨rfl, and_and_not_self _ _⟩
  exact ⟨t, ht, hframe, hbyte, hmask, hothers⟩

/-! ### LD F (42_index_memory.md R122) -/

theorem glyphAddress_toNat (b : Byte) :
    (BitVec.ofNat 16 Config.glyphBase + 5 * zext16 b).toNat = 0x0050 + 5 * b.toNat := by
  have hb := b.isLt
  rw [BitVec.toNat_add, BitVec.toNat_mul, zext16_toNat (by decide)]
  simp
  omega

/-- The glyph of a digit in reset memory. -/
theorem read_reset_glyph {d k : Nat} (hd : d ≤ 15) (hk : k < 5) :
    State.reset.mem.read (0x0050 + 5 * d + k) = glyphTable.getD (5 * d + k) 0 := by
  have hin : 0x0050 ≤ 0x0050 + 5 * d + k ∧ 0x0050 + 5 * d + k < 0x0050 + 80 := by omega
  have hoff : 0x0050 + 5 * d + k - 0x0050 = 5 * d + k := by omega
  exact (if_pos hin).trans (by rw [hoff])

/-- Settles O46: the formula does not wrap, and for a digit its address is inside the glyph
table. -/
theorem glyphAddressIsTheUnmaskedFormula : Obligations.GlyphAddressIsTheUnmaskedFormula := by
  refine ⟨ldF_decodesTo, fun x s => ?_⟩
  obtain ⟨t, ht, hframe, hi⟩ := finish_setI s (·.toNat = 0x0050 + 5 * (s.reg x).toNat)
    (glyphAddress_toNat (s.reg x))
  exact ⟨t, ht, hframe, hi, fun hdigit k hk => by rw [hi, read_reset_glyph hdigit hk]⟩

end Sys2Proof.Machine

namespace Sys2Proof.Machine

/-! ### The memory instructions (42_index_memory.md R123 to R126) -/

/-- An access that reaches above 0x0FFF is a BoundsFault that changes nothing, and the index it
reports lies in the access and above 0x0FFF (20_memory.md R46). -/
theorem withinMemory_fails (s : State) {base count : Nat} (body : StepResult) (hsome : count ≠ 0)
    (hout : 4096 < base + count) : ∃ index, withinMemory s base count body =
        .next { s with status := some (.boundsFault .data index (s.pc - 2)) } ∧
      0x0FFF < index ∧ base ≤ index ∧ index ≤ base + count - 1 := by
  obtain ⟨hfirst, habove, hlast⟩ :=
    offendingIndex_bounds (first := base) (last := base + count - 1) (by omega) (by omega)
  exact ⟨_, withinMemory_of_gt s body hsome hout, habove, hfirst, hlast⟩

/-- A byte of a run of bytes just stored. -/
theorem Memory.read_writeBytes_add {m : Memory} (h : m.wf = true) {a k : Nat} {bs : List Byte}
    (ha : a + bs.length ≤ 4096) (hk : k < bs.length) :
    (m.writeBytes a bs).read (a + k) = bs.getD k 0 := by
  rw [Memory.read_writeBytes h ha, if_pos (by omega), Nat.add_sub_cancel_left]

/-- A byte outside it. -/
theorem Memory.read_writeBytes_of_out {m : Memory} (h : m.wf = true) {a c : Nat} {bs : List Byte}
    (ha : a + bs.length ≤ 4096) (hc : c < a ∨ a + bs.length ≤ c) :
    (m.writeBytes a bs).read c = m.read c := by
  rw [Memory.read_writeBytes h ha, if_neg (by omega)]

/-- Settles O47: the three digits are the bytes stored, and no other byte is. -/
theorem bcdStoresThreeDigits : Obligations.BcdStoresThreeDigits := by
  refine ⟨ldB_decodesTo, fun x s hwf => ⟨fun hfit => ?_, fun hout => ?_⟩⟩
  · have hlen : s.i.toNat + (bcdDigits (s.reg x)).length ≤ 4096 := by
      simp only [bcdDigits, List.length_cons, List.length_nil]
      omega
    have hdigit (k : Nat) (hk : k < 3) := Memory.read_writeBytes_add hwf hlen (k := k) hk
    refine ⟨_, withinMemory_of_le s _ (by omega), rfl, ?_, ?_, ?_, fun a ha => ?_⟩
    · exact (congrArg BitVec.toNat (hdigit 0 (by decide))).trans (BitVec.toNat_udiv ..)
    · refine (congrArg BitVec.toNat (hdigit 1 (by decide))).trans ?_
      exact (BitVec.toNat_umod ..).trans (by rw [BitVec.toNat_udiv]; rfl)
    · exact (congrArg BitVec.toNat (hdigit 2 (by decide))).trans (BitVec.toNat_umod ..)
    · exact Memory.read_writeBytes_of_out hwf hlen ha
  · exact withinMemory_fails s _ (by decide) (by omega)

theorem getD_regsUpTo (s : State) {x r : Reg} (h : r ≤ x) :
    (s.regsUpTo x).getD r.val 0 = s.reg r := by
  have hlt : r.val < x.val + 1 := Nat.lt_succ_of_le h
  simp [State.regsUpTo, State.reg, hlt]

/-- A stored register reads back from its address. -/
theorem read_storeRegs {x r : Reg} {s : State} (hwf : s.mem.wf = true)
    (hfit : s.i.toNat + x.val ≤ 0x0FFF) (hr : r ≤ x) :
    (s.mem.writeBytes s.i.toNat (s.regsUpTo x)).read (s.i.toNat + r.val) = s.reg r := by
  have hlen := length_regsUpTo s x
  rw [Memory.read_writeBytes_add hwf (by omega) (by have : r.val ≤ x.val := hr; omega),
    getD_regsUpTo s hr]

theorem exec_storeRegs_of_le {x : Reg} {s : State} (hfit : s.i.toNat + x.val ≤ 0x0FFF) :
    exec (.storeRegs x) s = finish (s.storeBytes s.i.toNat (s.regsUpTo x)) :=
  withinMemory_of_le s _ (by omega)

theorem exec_loadRegs_of_le {x : Reg} {s : State} (hfit : s.i.toNat + x.val ≤ 0x0FFF) :
    exec (.loadRegs x) s = finish (s.loadRegsUpTo x s.i.toNat) :=
  withinMemory_of_le s _ (by omega)

/-- Settles O48: the bytes stored are the registers V0 to Vx. -/
theorem storeRegistersWritesTheBlock : Obligations.StoreRegistersWritesTheBlock := by
  refine ⟨storeRegs_decodesTo, fun x s hwf => ⟨fun hfit => ?_, fun hout => ?_⟩⟩
  · have hlen := length_regsUpTo s x
    refine ⟨_, exec_storeRegs_of_le hfit, rfl, fun r hr => read_storeRegs hwf hfit hr,
      fun a ha => ?_⟩
    exact Memory.read_writeBytes_of_out hwf (by omega) (by omega)
  · exact withinMemory_fails s _ (Nat.succ_ne_zero _) (by omega)

/-- Settles O49: the block V0 to Vx is read from memory, and no register above it is written. -/
theorem loadRegistersReadsTheBlock : Obligations.LoadRegistersReadsTheBlock := by
  refine ⟨loadRegs_decodesTo, fun x s => ⟨fun hfit => ?_, fun hout => ?_⟩⟩
  · refine ⟨_, exec_loadRegs_of_le hfit, rfl, fun r hr => ?_, fun r hr => ?_⟩
    · rw [State.reg_report, State.reg_loadRegsUpTo, if_pos hr]
    · rw [State.reg_report, State.reg_loadRegsUpTo, if_neg (not_le_of_gt hr)]
  · exact withinMemory_fails s _ (Nat.succ_ne_zero _) (by omega)

/-- Settles O50: the load reads V0 to Vx from where the store put them, and leaves the registers
above Vx. -/
theorem storedRegistersLoadBack : Obligations.StoredRegistersLoadBack := by
  intro x s t u hwf hfit hstore hmem hi hrest
  rw [exec_storeRegs_of_le hfit] at hstore
  cases hstore
  refine ⟨_, exec_loadRegs_of_le (by rwa [hi]), rfl, fun r => ?_⟩
  rw [State.reg_report, State.reg_loadRegsUpTo, hmem, hi]
  split_ifs with hr
  · exact read_storeRegs hwf hfit hr
  · exact hrest r (lt_of_not_ge hr)

/-- Settles O51: the fetch reads memory, where the store put the two registers. -/
theorem storeIsSeenByTheNextFetch : Obligations.StoreIsSeenByTheNextFetch := by
  intro x s t hwf hx hfit hstore k hk pc hpc
  rw [exec_storeRegs_of_le hfit] at hstore
  cases hstore
  have hread (j : Nat) (hj : j ≤ x.val) :
      (s.mem.writeBytes s.i.toNat (s.regsUpTo x)).read (s.i.toNat + j) =
        s.reg (Fin.ofNat 16 j) := by
    have hval : (Fin.ofNat 16 j).val = j := Nat.mod_eq_of_lt (by omega)
    have hle : Fin.ofNat 16 j ≤ x := by rw [Fin.le_def, hval]; exact hj
    rw [← read_storeRegs hwf hfit hle, hval]
  refine (fetchWord_of_le _ (by change pc.toNat ≤ 0x0FFE; omega)).trans ?_
  simp only [State.report_mem, State.storeBytes_mem, hpc, Nat.add_assoc]
  rw [hread k (by omega), hread (k + 1) hk]

end Sys2Proof.Machine

namespace Sys2Proof.Machine

/-! ### DRW (43_display.md R141, R142) -/

/-- What DRW draws. -/
def State.drawn (s : State) (x y : Reg) (n : Nat) : Canvas :=
  drawSprite (s.reg x) (s.reg y) (s.mem.readBytes s.i.toNat n) s.fb

theorem exec_drw_of_fits {x y : Reg} {n : Fin 16} {s : State}
    (hfit : n.val = 0 ∨ s.i.toNat + n.val - 1 ≤ 0x0FFF) :
    exec (.drw x y n) s = finish { s.setReg vf (flagByte (s.drawn x y n.val).hit) with
      fb := (s.drawn x y n.val).fb, draw := true } :=
  withinMemory_of_le s _ (by omega)

/-- The pixels of the sprite's bytes are those the sprite covers. -/
theorem spritePixels_iff_spriteCovers {s : State} {x y : Reg} {n : Nat} (px : Fin 64)
    (py : Fin 32) : spritePixels (s.reg x) (s.reg y) 0 (s.mem.readBytes s.i.toNat n) px py ↔
      spriteCovers s x y n px py := by
  simp only [spritePixels, spriteCovers, spriteBit, Memory.length_readBytes, Nat.zero_add]
  refine exists_congr fun r => and_congr_right fun hr => exists_congr fun c => ?_
  rw [Memory.getD_readBytes s.mem hr, Fin.ext_iff, Fin.ext_iff]
  rfl

/-- The drawing toggles the covered pixels, and notes whether one of them was set. -/
theorem toggles_drawn (s : State) (x y : Reg) {n : Nat} (hn : n ≤ 32) :
    Canvas.Toggles (spriteCovers s x y n) { fb := s.fb, hit := false } (s.drawn x y n) :=
  (toggles_drawSprite (s.reg x) (s.reg y) (s.mem.readBytes s.i.toNat n) (by simpa using hn)
    s.fb).congr spritePixels_iff_spriteCovers

theorem flagByte_eq_one {b : Bool} : flagByte b = 1 ↔ b = true := by
  cases b <;> simp [flagByte]

/-- Settles O53: the framebuffer and the collision are those of the drawing, and the only register
written is VF. -/
theorem drawTogglesTheCoveredPixels : Obligations.DrawTogglesTheCoveredPixels := by
  refine ⟨drw_decodesTo, fun x y n s => ⟨fun hfit => ?_, fun ⟨hsome, hout⟩ => ?_⟩⟩
  · obtain ⟨hcovered, hothers, hhit⟩ := toggles_drawn s x y (n := n.val) (by omega)
    refine ⟨_, exec_drw_of_fits hfit, rfl, hcovered, hothers, ?_, ?_, fun r hr => ?_⟩
    · change (s.setReg vf (flagByte (s.drawn x y n.val).hit)).reg vf = 1 ↔ _
      rw [State.reg_setReg_self, flagByte_eq_one, hhit]
      simp only [Bool.false_eq_true, false_or]
    · change (s.setReg vf (flagByte (s.drawn x y n.val).hit)).reg vf = 0 ∨
        (s.setReg vf (flagByte (s.drawn x y n.val).hit)).reg vf = 1
      rw [State.reg_setReg_self]
      exact flagByte_eq_zero_or_one _
    · exact State.reg_setReg_ne s (flagByte _) hr
  · exact withinMemory_fails s _ (by omega) (by omega)

/-- What a sprite covers depends on I, memory and the two coordinate registers only. -/
theorem spriteCovers_congr {s t : State} {x y : Reg} {n : Nat} (hi : t.i = s.i)
    (hmem : t.mem = s.mem) (hx : t.reg x = s.reg x) (hy : t.reg y = s.reg y) (px : Fin 64)
    (py : Fin 32) : spriteCovers t x y n px py ↔ spriteCovers s x y n px py := by
  simp only [spriteCovers, spriteBit, hi, hmem, hx, hy]

/-- A sprite covers some pixel exactly when it has a set bit. -/
theorem exists_spriteCovers {s : State} {x y : Reg} {n : Nat} :
    (∃ px py, spriteCovers s x y n px py) ↔ ∃ r < n, ∃ c < 8, spriteBit s r c := by
  constructor
  · rintro ⟨px, py, r, hr, c, hc, hbit, -⟩
    exact ⟨r, hr, c, hc, hbit⟩
  · rintro ⟨r, hr, c, hc, hbit⟩
    exact ⟨spriteColumn (s.reg x) c, spriteRow (s.reg y) r, r, hr, c, hc, hbit, rfl, rfl⟩

/-- Settles O54: the first draw moves neither I, memory nor a coordinate register, so the second
covers the same pixels and toggles them back; it collides where the first left a pixel set. -/
theorem drawingTwiceRestoresTheFramebuffer : Obligations.DrawingTwiceRestoresTheFramebuffer := by
  intro x y n s t u hx hy hfit hfirst hsecond
  obtain ⟨-, hdraw⟩ := drawTogglesTheCoveredPixels
  obtain ⟨t', ht', hframe, hin, hout, -, -, hregs⟩ := (hdraw x y n s).1 hfit
  obtain rfl : t' = t := Host.Outcome.next.inj (ht'.symm.trans hfirst)
  have hi : t'.i = s.i := by rw [hframe]
  have hmem : t'.mem = s.mem := by rw [hframe]
  have hcovers := spriteCovers_congr (n := n.val) hi hmem (hregs x hx) (hregs y hy)
  obtain ⟨u', hu', -, hin', hout', hhit', -, -⟩ := (hdraw x y n t').1 (by rwa [hi])
  obtain rfl : u' = u := Host.Outcome.next.inj (hu'.symm.trans hsecond)
  simp only [hcovers] at hin' hout' hhit'
  have hhit : u'.reg vf = 1 ↔
      ∃ px py, spriteCovers s x y n.val px py ∧ s.fb.pixel px py = false := by
    rw [hhit']
    refine exists_congr fun px => exists_congr fun py => and_congr_right fun hc => ?_
    rw [hin px py hc, Bool.not_eq_true']
  refine ⟨Framebuffer.ext fun px py => ?_, hhit, fun hblank => ?_⟩
  · by_cases hc : spriteCovers s x y n.val px py
    · rw [hin' px py hc, hin px py hc, Bool.not_not]
    · rw [hout' px py hc, hout px py hc]
  · rw [hhit, ← exists_spriteCovers (x := x) (y := y)]
    exact exists_congr fun px => exists_congr fun py => and_iff_left_of_imp (hblank px py)

end Sys2Proof.Machine
